-- ==== Sys2Proof/Word.lean ====
section
/-! DEFINITION. The words of the machine (spec/00_scope.md R5, R7, R9): what the spec treats as bits is a bit vector
of the spec's width, and everything else is not. -/

namespace Sys2Proof

/-- A general register, a timer, a byte of memory, a frame-buffer cell: 8 bits (R5 REG_W, TIMER_W). -/
abbrev Byte := BitVec 8

/-- The opcode, I, pc and a stack entry: 16 bits (R5 I_W, PC_W, STACK_W). -/
abbrev Word := BitVec 16

/-- A nibble of the opcode (R7), and every value counted modulo 16: SP (10_state.md R25), a key number (R237). -/
abbrev Nibble := BitVec 4

/-- The number of a general register, the fields `x` and `y` of R9; every value is legal (30_encoding.md R93). -/
abbrev RegIdx := BitVec 4

/-- The address field `nnn` of R9. -/
abbrev Addr12 := BitVec 12

end Sys2Proof
end

