-- ==== Sys2Proof/Syntax.lean ====
section
/-! DEFINITION. The instructions as syntax: one constructor per row of spec/opcode_table.json (spec/30_encoding.md R96),
in the table's order. Bits the table marks as ignored are no operand (R98): log 9. -/

namespace Sys2Proof

/-- An instruction with the operand fields its rule names (R91, R92). -/
inductive Instr where
  /-- 00E0, 44_display.md R210 -/
  | clear
  /-- 00EE, 41_control_flow.md R140 -/
  | ret
  /-- 1NNN, R141 -/
  | jump (nnn : Addr12)
  /-- 2NNN, R142 -/
  | call (nnn : Addr12)
  /-- 3XKK, R143 -/
  | skipEqImm (x : RegIdx) (kk : Byte)
  /-- 4XKK, R144 -/
  | skipNeqImm (x : RegIdx) (kk : Byte)
  /-- 5XY0, R145 -/
  | skipEqReg (x y : RegIdx)
  /-- 6XKK, 42_alu.md R160 -/
  | loadImm (x : RegIdx) (kk : Byte)
  /-- 7XKK, R161 -/
  | addImm (x : RegIdx) (kk : Byte)
  /-- 8XY0, R162 -/
  | copy (x y : RegIdx)
  /-- 8XY1, R163 -/
  | or (x y : RegIdx)
  /-- 8XY2, R164 -/
  | and (x y : RegIdx)
  /-- 8XY3, R165 -/
  | xor (x y : RegIdx)
  /-- 8XY4, R166 -/
  | addCarry (x y : RegIdx)
  /-- 8XY5, R167 -/
  | subBorrow (x y : RegIdx)
  /-- 8XY6, R168 -/
  | shiftRight (x : RegIdx)
  /-- 8XY7, R169 -/
  | revSubBorrow (x y : RegIdx)
  /-- 8XYE, R170 -/
  | shiftLeft (x : RegIdx)
  /-- 9XY0, 41_control_flow.md R146 -/
  | skipNeqReg (x y : RegIdx)
  /-- ANNN, 43_index_memory.md R190 -/
  | setIndex (nnn : Addr12)
  /-- BNNN, 41_control_flow.md R147 -/
  | jumpIndexed (nnn : Addr12)
  /-- CXKK, 45_keypad_timers_random.md R236 -/
  | random (x : RegIdx) (kk : Byte)
  /-- DXYN, 44_display.md R211 -/
  | drawSprite (x y : RegIdx) (n : Nibble)
  /-- EX9E, 45_keypad_timers_random.md R230 -/
  | skipKeyPressed (x : RegIdx)
  /-- EXA1, R231 -/
  | skipKeyNotPressed (x : RegIdx)
  /-- FX07, R233 -/
  | readDelayTimer (x : RegIdx)
  /-- FX0A, R232 -/
  | waitForKey (x : RegIdx)
  /-- FX15, R234 -/
  | setDelayTimer (x : RegIdx)
  /-- FX18, R235 -/
  | setSoundTimer (x : RegIdx)
  /-- FX1E, 43_index_memory.md R191 -/
  | addIndex (x : RegIdx)
  /-- FX29, R192 -/
  | setIndexToDigitSprite (x : RegIdx)
  /-- FX33, R193 -/
  | storeBCD (x : RegIdx)
  /-- FX55, R194 -/
  | storeRegisters (x : RegIdx)
  /-- FX65, R195 -/
  | loadRegisters (x : RegIdx)
  /-- Any other word, 30_encoding.md R97, 40_step_cycle.md R126. It carries its word so that encoding it gives the
  word back (log 10); the word is no operand of its effect. -/
  | unrecognised (word : Word)
deriving DecidableEq, Repr

/-- The mnemonic of an instruction, spelled as R96 and spec/opcode_table.json spell it. -/
def Instr.mnemonic : Instr → String
  | .clear => "Clear"
  | .ret => "Return"
  | .jump _ => "Jump"
  | .call _ => "Call"
  | .skipEqImm _ _ => "SkipEqImm"
  | .skipNeqImm _ _ => "SkipNeqImm"
  | .skipEqReg _ _ => "SkipEqReg"
  | .loadImm _ _ => "LoadImm"
  | .addImm _ _ => "AddImm"
  | .copy _ _ => "Copy"
  | .or _ _ => "Or"
  | .and _ _ => "And"
  | .xor _ _ => "Xor"
  | .addCarry _ _ => "AddCarry"
  | .subBorrow _ _ => "SubBorrow"
  | .shiftRight _ => "ShiftRight"
  | .revSubBorrow _ _ => "RevSubBorrow"
  | .shiftLeft _ => "ShiftLeft"
  | .skipNeqReg _ _ => "SkipNeqReg"
  | .setIndex _ => "SetIndex"
  | .jumpIndexed _ => "JumpIndexed"
  | .random _ _ => "Random"
  | .drawSprite _ _ _ => "DrawSprite"
  | .skipKeyPressed _ => "SkipKeyPressed"
  | .skipKeyNotPressed _ => "SkipKeyNotPressed"
  | .readDelayTimer _ => "ReadDelayTimer"
  | .waitForKey _ => "WaitForKey"
  | .setDelayTimer _ => "SetDelayTimer"
  | .setSoundTimer _ => "SetSoundTimer"
  | .addIndex _ => "AddIndex"
  | .setIndexToDigitSprite _ => "SetIndexToDigitSprite"
  | .storeBCD _ => "StoreBCD"
  | .storeRegisters _ => "StoreRegisters"
  | .loadRegisters _ => "LoadRegisters"
  | .unrecognised _ => "Unrecognised"

end Sys2Proof
end

