-- ==== Sys2Proof/WellFormed.lean ====
section
/-! DEFINITION. Which terms of Instr are instructions of the machine. Register numbers, immediates, addresses and counts
fill their fields whole and every value is legal (spec/30_encoding.md R93), so their types already say it; the one check
is that an unrecognised word is a word of R97's table. -/

namespace Sys2Proof

/-- The unrecognised words, class by class, as R97 tabulates them. -/
def unrecognisedWord (w : Word) : Bool :=
  let cls := w.toNat / 4096
  let kk := w.toNat % 256
  let n := w.toNat % 16
  if cls = 0x0 then kk ∉ [0xE0, 0xEE]
  else if cls = 0x8 then n ∈ [0x8, 0x9, 0xA, 0xB, 0xC, 0xD, 0xF]
  else if cls = 0xE then kk ∉ [0x9E, 0xA1]
  else if cls = 0xF then kk ∉ [0x07, 0x0A, 0x15, 0x18, 0x1E, 0x29, 0x33, 0x55, 0x65]
  else false

/-- A term of Instr that some word of the machine stands for. -/
def Instr.wellFormed : Instr → Bool
  | .unrecognised w => unrecognisedWord w
  | .clear | .ret | .jump _ | .call _ | .skipEqImm _ _ | .skipNeqImm _ _ | .skipEqReg _ _ | .loadImm _ _
  | .addImm _ _ | .copy _ _ | .or _ _ | .and _ _ | .xor _ _ | .addCarry _ _ | .subBorrow _ _ | .shiftRight _
  | .revSubBorrow _ _ | .shiftLeft _ | .skipNeqReg _ _ | .setIndex _ | .jumpIndexed _ | .random _ _
  | .drawSprite _ _ _ | .skipKeyPressed _ | .skipKeyNotPressed _ | .readDelayTimer _ | .waitForKey _
  | .setDelayTimer _ | .setSoundTimer _ | .addIndex _ | .setIndexToDigitSprite _ | .storeBCD _
  | .storeRegisters _ | .loadRegisters _ => true

end Sys2Proof
end

