-- ==== Sys2Proof/Decode.lean ====
section
/-! DEFINITION. From bytes to instructions and back (spec/30_encoding.md). The decoder is R104's; the opcode map is R96's
table of masks and matches; the encoder puts the fields where R91 and R92 say. The bit patterns are the spec's decision
D2: log 7. -/

namespace Sys2Proof

/-! The fields of an opcode (R9, R91). -/

/-- `class = op[15:12]` (R9). -/
def fieldClass (op : Word) : Nibble := op.extractLsb' 12 4

/-- `x = op[11:8]` (R9). -/
def fieldX (op : Word) : RegIdx := op.extractLsb' 8 4

/-- `y = op[7:4]` (R9). -/
def fieldY (op : Word) : RegIdx := op.extractLsb' 4 4

/-- `n = op[3:0]` (R9). -/
def fieldN (op : Word) : Nibble := op.extractLsb' 0 4

/-- `kk = op[7:0]` (R9). -/
def fieldKK (op : Word) : Byte := op.extractLsb' 0 8

/-- `nnn = op[11:0]` (R9). -/
def fieldNNN (op : Word) : Addr12 := op.extractLsb' 0 12

/-- Class 0x0, told apart on the low byte (R95, D3: log 8). -/
def decodeClass0 (op : Word) : Instr :=
  match fieldKK op with
  | 0xE0#8 => .clear
  | 0xEE#8 => .ret
  | _ => .unrecognised op

/-- Class 0x8, told apart on the low nibble (R95). -/
def decodeClass8 (op : Word) : Instr :=
  match fieldN op with
  | 0x0#4 => .copy (fieldX op) (fieldY op)
  | 0x1#4 => .or (fieldX op) (fieldY op)
  | 0x2#4 => .and (fieldX op) (fieldY op)
  | 0x3#4 => .xor (fieldX op) (fieldY op)
  | 0x4#4 => .addCarry (fieldX op) (fieldY op)
  | 0x5#4 => .subBorrow (fieldX op) (fieldY op)
  | 0x6#4 => .shiftRight (fieldX op)
  | 0x7#4 => .revSubBorrow (fieldX op) (fieldY op)
  | 0xE#4 => .shiftLeft (fieldX op)
  | _ => .unrecognised op

/-- Class 0xE, told apart on the low byte (R95, D4: log 8). -/
def decodeClassE (op : Word) : Instr :=
  match fieldKK op with
  | 0x9E#8 => .skipKeyPressed (fieldX op)
  | 0xA1#8 => .skipKeyNotPressed (fieldX op)
  | _ => .unrecognised op

/-- Class 0xF, told apart on the low byte (R95). -/
def decodeClassF (op : Word) : Instr :=
  match fieldKK op with
  | 0x07#8 => .readDelayTimer (fieldX op)
  | 0x0A#8 => .waitForKey (fieldX op)
  | 0x15#8 => .setDelayTimer (fieldX op)
  | 0x18#8 => .setSoundTimer (fieldX op)
  | 0x1E#8 => .addIndex (fieldX op)
  | 0x29#8 => .setIndexToDigitSprite (fieldX op)
  | 0x33#8 => .storeBCD (fieldX op)
  | 0x55#8 => .storeRegisters (fieldX op)
  | 0x65#8 => .loadRegisters (fieldX op)
  | _ => .unrecognised op

/-- The decoder of R104: dispatch on the class alone, then inside four classes on the secondary discriminant (R94, R95); the last arm is class 0xF, the one left.
Total (R100): every word is an instruction or the unrecognised word. -/
def decodeWord (op : Word) : Instr :=
  match fieldClass op with
  | 0x0#4 => decodeClass0 op
  | 0x1#4 => .jump (fieldNNN op)
  | 0x2#4 => .call (fieldNNN op)
  | 0x3#4 => .skipEqImm (fieldX op) (fieldKK op)
  | 0x4#4 => .skipNeqImm (fieldX op) (fieldKK op)
  | 0x5#4 => .skipEqReg (fieldX op) (fieldY op)
  | 0x6#4 => .loadImm (fieldX op) (fieldKK op)
  | 0x7#4 => .addImm (fieldX op) (fieldKK op)
  | 0x8#4 => decodeClass8 op
  | 0x9#4 => .skipNeqReg (fieldX op) (fieldY op)
  | 0xA#4 => .setIndex (fieldNNN op)
  | 0xB#4 => .jumpIndexed (fieldNNN op)
  | 0xC#4 => .random (fieldX op) (fieldKK op)
  | 0xD#4 => .drawSprite (fieldX op) (fieldY op) (fieldN op)
  | 0xE#4 => decodeClassE op
  | _ => decodeClassF op

/-- Why bytes are no instruction. Every 16-bit word is one (R100), so the only way is to be too short (R90): log 25. -/
inductive DecodeReject where
  /-- Fewer than the two bytes of an instruction (R90). -/
  | truncated
deriving DecidableEq, Repr

/-- The opcode made of two bytes in memory order, the first most significant (20_memory.md R62). -/
def wordOfBytes (first second : Byte) : Word := first ++ second

/-- The instruction at the front of a list of bytes, with the bytes after it. -/
def decodeBytes : List Byte → Except DecodeReject (Instr × List Byte)
  | first :: second :: rest => .ok (decodeWord (wordOfBytes first second), rest)
  | _ => .error .truncated

/-! The encoder (R92, R101): the canonical word of an instruction, every ignored bit zero (R98). -/

/-- Format A, and the class and address of R92. -/
def formA (cls : Nibble) (nnn : Addr12) : Word := cls ++ nnn

/-- Formats I and X: class, x, low byte (R92). -/
def formI (cls : Nibble) (x : RegIdx) (kk : Byte) : Word := cls ++ (x ++ kk)

/-- Formats R and D: class, x, y, low nibble (R92). -/
def formR (cls : Nibble) (x y : RegIdx) (n : Nibble) : Word := cls ++ (x ++ (y ++ n))

/-- The canonical word of an instruction: R96's pattern with the fields in the places of X, Y, KK, NNN, N (R101). -/
def encodeWord : Instr → Word
  | .clear => 0x00E0
  | .ret => 0x00EE
  | .jump nnn => formA 0x1 nnn
  | .call nnn => formA 0x2 nnn
  | .skipEqImm x kk => formI 0x3 x kk
  | .skipNeqImm x kk => formI 0x4 x kk
  | .skipEqReg x y => formR 0x5 x y 0x0
  | .loadImm x kk => formI 0x6 x kk
  | .addImm x kk => formI 0x7 x kk
  | .copy x y => formR 0x8 x y 0x0
  | .or x y => formR 0x8 x y 0x1
  | .and x y => formR 0x8 x y 0x2
  | .xor x y => formR 0x8 x y 0x3
  | .addCarry x y => formR 0x8 x y 0x4
  | .subBorrow x y => formR 0x8 x y 0x5
  | .shiftRight x => formR 0x8 x 0x0 0x6
  | .revSubBorrow x y => formR 0x8 x y 0x7
  | .shiftLeft x => formR 0x8 x 0x0 0xE
  | .skipNeqReg x y => formR 0x9 x y 0x0
  | .setIndex nnn => formA 0xA nnn
  | .jumpIndexed nnn => formA 0xB nnn
  | .random x kk => formI 0xC x kk
  | .drawSprite x y n => formR 0xD x y n
  | .skipKeyPressed x => formI 0xE x 0x9E
  | .skipKeyNotPressed x => formI 0xE x 0xA1
  | .readDelayTimer x => formI 0xF x 0x07
  | .waitForKey x => formI 0xF x 0x0A
  | .setDelayTimer x => formI 0xF x 0x15
  | .setSoundTimer x => formI 0xF x 0x18
  | .addIndex x => formI 0xF x 0x1E
  | .setIndexToDigitSprite x => formI 0xF x 0x29
  | .storeBCD x => formI 0xF x 0x33
  | .storeRegisters x => formI 0xF x 0x55
  | .loadRegisters x => formI 0xF x 0x65
  | .unrecognised w => w

/-- The two bytes of a word in memory order, the high byte at the lower address (R62, R101). -/
def bytesOfWord (w : Word) : List Byte := [w.extractLsb' 8 8, w.extractLsb' 0 8]

/-- The bytes of an instruction as they stand in memory (the encoder). -/
def encode (i : Instr) : List Byte := bytesOfWord (encodeWord i)

/-- R96's opcode map: mnemonic, mask and match of each of its 34 rows. -/
def opcodeMap : List (String × Word × Word) :=
  [("Clear", 0xF0FF, 0x00E0), ("Return", 0xF0FF, 0x00EE), ("Jump", 0xF000, 0x1000), ("Call", 0xF000, 0x2000),
   ("SkipEqImm", 0xF000, 0x3000), ("SkipNeqImm", 0xF000, 0x4000), ("SkipEqReg", 0xF000, 0x5000),
   ("LoadImm", 0xF000, 0x6000), ("AddImm", 0xF000, 0x7000)] ++
  [("Copy", 0xF00F, 0x8000), ("Or", 0xF00F, 0x8001), ("And", 0xF00F, 0x8002), ("Xor", 0xF00F, 0x8003),
   ("AddCarry", 0xF00F, 0x8004), ("SubBorrow", 0xF00F, 0x8005), ("ShiftRight", 0xF00F, 0x8006),
   ("RevSubBorrow", 0xF00F, 0x8007), ("ShiftLeft", 0xF00F, 0x800E)] ++
  [("SkipNeqReg", 0xF000, 0x9000), ("SetIndex", 0xF000, 0xA000), ("JumpIndexed", 0xF000, 0xB000),
   ("Random", 0xF000, 0xC000), ("DrawSprite", 0xF000, 0xD000), ("SkipKeyPressed", 0xF0FF, 0xE09E),
   ("SkipKeyNotPressed", 0xF0FF, 0xE0A1)] ++
  [("ReadDelayTimer", 0xF0FF, 0xF007), ("WaitForKey", 0xF0FF, 0xF00A), ("SetDelayTimer", 0xF0FF, 0xF015),
   ("SetSoundTimer", 0xF0FF, 0xF018), ("AddIndex", 0xF0FF, 0xF01E), ("SetIndexToDigitSprite", 0xF0FF, 0xF029),
   ("StoreBCD", 0xF0FF, 0xF033), ("StoreRegisters", 0xF0FF, 0xF055), ("LoadRegisters", 0xF0FF, 0xF065)]

/-- The bits of a word that its instruction ignores, by R98's table of aliases: the x nibble of 0x0XE0 and 0x0XEE,
the low nibble of classes 0x5 and 0x9, the y nibble of the shifts. -/
def ignoredBits (w : Word) : Word :=
  if w &&& 0xF0FF = 0x00E0 ∨ w &&& 0xF0FF = 0x00EE then 0x0F00
  else if w &&& 0xF000 = 0x5000 ∨ w &&& 0xF000 = 0x9000 then 0x000F
  else if w &&& 0xF00F = 0x8006 ∨ w &&& 0xF00F = 0x800E then 0x00F0
  else 0x0000

/-- The word a table row's bits give, `w` numbered as spec/opcode_table.json numbers them (bit 0 least significant of
the one word); none for a row of more bits than the 16 an instruction has (R90): log 25. -/
def tableWord (nbits w : Nat) : Option Word :=
  if nbits ≤ 16 then some (BitVec.ofNat 16 (w % 2 ^ nbits)) else none

/-- The instruction the decoder reads from the bytes of a table row's word. -/
def decodeTableWord (nbits w : Nat) : Option Instr :=
  match tableWord nbits w with
  | none => none
  | some op =>
    match decodeBytes (bytesOfWord op) with
    | .ok (i, _) => some i
    | .error _ => none

end Sys2Proof
end

