-- ==== Sys2Proof/Config.lean ====
section
/-! DEFINITION. What is fixed for the machine: the parameters of spec/00_scope.md R5, the font constant of
spec/10_state.md R31, and the free value of the random source (spec/10_state.md R34). The open parameters of R6 stand
at the spec's defaults; each has a log entry. -/

namespace Sys2Proof.Config

/-- MEM_SIZE (R5): bytes of main memory. -/
def memSize : Nat := 4096

/-- PROG_BASE (R5): where a program is loaded, and pc after reset. -/
def progBase : Word := 0x200

/-- PROG_MAX (R5): the longest image that fits, `4096 - 0x200`. -/
def progMax : Nat := 3584

/-- NOKEY (R5): the value of LASTKEY that the host writes for "no key". -/
def noKey : Byte := 0x10

/-- PIX_OFF (R5). -/
def pixOff : Byte := 0x00

/-- PIX_ON (R5). -/
def pixOn : Byte := 0xFF

/-- FONT (10_state.md R31): 16 glyphs of 5 bytes, top row first, glyph in the upper four bits.
DESIGN CHOICE, the spec's own (D10, general knowledge G2): log 13. -/
def font : List Byte :=
  [0xF0, 0x90, 0x90, 0x90, 0xF0] ++
  [0x20, 0x60, 0x20, 0x20, 0x70] ++
  [0xF0, 0x10, 0xF0, 0x80, 0xF0] ++
  [0xF0, 0x10, 0xF0, 0x10, 0xF0] ++
  [0x90, 0x90, 0xF0, 0x10, 0x10] ++
  [0xF0, 0x80, 0xF0, 0x10, 0xF0] ++
  [0xF0, 0x80, 0xF0, 0x90, 0xF0] ++
  [0xF0, 0x10, 0x20, 0x40, 0x40] ++
  [0xF0, 0x90, 0xF0, 0x90, 0xF0] ++
  [0xF0, 0x90, 0xF0, 0x10, 0xF0] ++
  [0xF0, 0x90, 0xF0, 0x90, 0x90] ++
  [0xE0, 0x90, 0xE0, 0x90, 0xE0] ++
  [0xF0, 0x80, 0x80, 0x80, 0xF0] ++
  [0xE0, 0x90, 0x90, 0x90, 0xE0] ++
  [0xF0, 0x80, 0xF0, 0x80, 0xF0] ++
  [0xF0, 0x80, 0xF0, 0x80, 0x80]

/-- The byte the random source supplies at its draw number `k` (10_state.md R34, 45_keypad_timers_random.md R236).
A FREE VALUE: no body, so no proof can see it, and a claim holds for every sequence of draws (D16): log 1. -/
opaque rnd : Nat → Byte

end Sys2Proof.Config
end

