-- ==== Sys2Proof/Machine/State.lean ====
section
/-! DEFINITION. The state of the machine: the eleven items of spec/10_state.md R20 and the counter of the random
source's draws, and the state after reset (R37). -/

namespace Sys2Proof.Machine

/-- Main memory (10_state.md R32, 20_memory.md R60) as cells (address, byte), addresses strictly rising, no cell equal to
what an unlisted address reads as (`Memory.wf`): log 3. -/
abbrev Memory := List Host.Cell

/-- The frame buffer (R27): 32 rows of 64 cells of one byte; row 0 top, column 0 left. -/
abbrev FrameBuffer := Vector (Vector Byte 64) 32

/-- The whole state (R20). The fetched opcode is not part of it (R33). -/
structure State where
  /-- V[0..15], VF being V[15] (R21, R22). -/
  v : Vector Byte 16
  /-- I (R23). -/
  index : Word
  /-- pc: between steps, the address of the next instruction (R24). -/
  pc : Word
  /-- SP, the index of the next free entry of STACK, modulo 16 (R25, D7: log 6). -/
  sp : Nibble
  /-- STACK[0..15], addresses of Call instructions (R26). -/
  stack : Vector Word 16
  /-- MEM[0..4095] (R32). -/
  mem : Memory
  /-- FB[0..31][0..63] (R27). -/
  fb : FrameBuffer
  /-- KEY[0..15], the key-down flags (R28). -/
  key : Vector Bool 16
  /-- LASTKEY: 0 to 15 a key, 16 to 255 no key (R29, D22: log 19). -/
  lastKey : Byte
  /-- DT (R30). -/
  dt : Byte
  /-- ST (R30). -/
  st : Byte
  /-- The model's own: how many bytes the random source has supplied (R34, D16: log 1). -/
  draws : Nat
deriving DecidableEq, Repr

/-- Why the machine stops with a fault: never. The machine raises no exception and every STEP completes
(60_exceptions.md R280, R281), so there is no reason to name (log 22). -/
inductive Fault where
deriving DecidableEq, Repr

/-- Why an instruction has no meaning. -/
inductive Refusal where
  /-- Raised by `exec` in the arm of an instruction that is not modelled; safe (the machine stops where the hardware
  goes on). No arm raises it: every instruction has its meaning. -/
  | notModelled (mnemonic : String)
deriving DecidableEq, Repr

/-- The outcome of a step of this machine. -/
abbrev Result := Host.Outcome State Fault Refusal

/-- The state after RESET (R37, 70_reset_and_hazards.md R310). I, SP, FB, LASTKEY, DT and ST are the spec's decision
D11 (log 14), `draws` is the model's own (DESIGN CHOICE, log 2). Memory lists nothing: every address reads as its reset
contents (log 3). -/
def State.reset : State where
  v := Vector.replicate 16 0x00
  index := 0x0000
  pc := Config.progBase
  sp := 0
  stack := Vector.replicate 16 0x0000
  mem := []
  fb := Vector.replicate 32 (Vector.replicate 64 Config.pixOff)
  key := Vector.replicate 16 false
  lastKey := Config.noKey
  dt := 0x00
  st := 0x00
  draws := 0

end Sys2Proof.Machine
end

