-- ==== Sys2Proof/Machine/Ops.lean ====
section
/-! DEFINITION. The named operations over memory, registers, stack, frame buffer and pc, each in one place.
There is no operation that takes an exception and none that returns from one: the machine has neither
(spec/60_exceptions.md R280, R285, R286): log 22. -/

namespace Sys2Proof.Machine

/-! Memory (20_memory.md). -/

/-- `ea(a) = a mod 4096` (R61, D5: log 4). -/
def ea (a : Word) : Nat := a.toNat % Config.memSize

/-- What an address reads as while no cell lists it: its contents after RESET (10_state.md R37), the font at 0x000 to
0x04F and 0x00 elsewhere (log 3). -/
def Memory.default (a : Nat) : Byte := Config.font.getD a 0x00

/-- The byte at an address. -/
def Memory.read : Memory → Nat → Byte
  | [], a => Memory.default a
  | (b, v) :: m, a => if a = b then v else Memory.read m a

/-- Put a byte at an address, keeping addresses rising and dropping a cell that says what its address reads as anyway. -/
def Memory.write : Memory → Nat → Byte → Memory
  | [], a, v => if v = Memory.default a then [] else [(a, v)]
  | (b, w) :: m, a, v =>
    if a < b then (if v = Memory.default a then (b, w) :: m else (a, v) :: (b, w) :: m)
    else if a = b then (if v = Memory.default a then m else (a, v) :: m)
    else (b, w) :: Memory.write m a v

/-- The canonical form: addresses strictly rising and inside the 4096 bytes (R60), no cell that says what its address
reads as unlisted. -/
abbrev Memory.wf (m : Memory) : Prop :=
  m.Pairwise (fun c d => c.1 < d.1) ∧ ∀ c ∈ m, c.1 < Config.memSize ∧ c.2 ≠ Memory.default c.1

/-- `MemRead(a, 1)` of n bytes one after another, each address reduced on its own (R61). -/
def Memory.readBytes (m : Memory) (a : Word) : Nat → List Byte
  | 0 => []
  | n + 1 => m.read (ea a) :: Memory.readBytes m (a + 1) n

/-- `MemWrite(a, 1, v)` of bytes one after another at ascending addresses, each reduced on its own (R61, R63). -/
def Memory.writeBytes (m : Memory) (a : Word) : List Byte → Memory
  | [] => m
  | v :: vs => Memory.writeBytes (m.write (ea a) v) (a + 1) vs

namespace State

/-- `MemRead(a, 1)` (R61). -/
def byteAt (s : State) (a : Word) : Byte := s.mem.read (ea a)

/-- Bytes stored at ascending addresses from `a` (R61, R76). -/
def storeBytes (a : Word) (vs : List Byte) (s : State) : State := { s with mem := s.mem.writeBytes a vs }

/-- `MemRead(a, 2)`: two bytes, the one at the lower address most significant (R61, R62). -/
def wordAt (s : State) (a : Word) : Word := s.byteAt a ++ s.byteAt (a + 1)

/-! Registers (10_state.md R21 to R26). -/

/-- `V[x]` (R21). -/
def reg (s : State) (x : RegIdx) : Byte := s.v[x.toNat]

/-- `V[x] <- b` (R21). -/
def setReg (x : RegIdx) (b : Byte) (s : State) : State := { s with v := s.v.set x.toNat b }

/-- Registers written one after another from `x` up, with the bytes of a list. -/
def setRegsFrom (x : RegIdx) : List Byte → State → State
  | [], s => s
  | b :: bs, s => setRegsFrom (x + 1) bs (s.setReg x b)

/-- V0 to Vx in order, x + 1 bytes (43_index_memory.md R194). -/
def regsUpTo (x : RegIdx) (s : State) : List Byte := s.v.toList.take (x.toNat + 1)

/-- `I <- a` (R23). -/
def setIndexReg (a : Word) (s : State) : State := { s with index := a }

/-- `STACK[k]` (R26). -/
def stackAt (s : State) (k : Nibble) : Word := s.stack[k.toNat]

/-- Call's push: `STACK[SP] <- a`, then `SP <- (SP + 1) mod 16` (R25). -/
def push (a : Word) (s : State) : State := { s with stack := s.stack.set s.sp.toNat a, sp := s.sp + 1 }

/-- Return's pop: `SP <- (SP - 1) mod 16`, then `pc <- STACK[SP]`; the entry keeps its value (R25, 41_control_flow.md
R140). -/
def popPc (s : State) : State := { s with sp := s.sp - 1, pc := s.stackAt (s.sp - 1) }

/-- `KEY[k]` (R28). -/
def keyDown (s : State) (k : Nibble) : Bool := s.key[k.toNat]

/-- `FB[r][c]` (R27). -/
def pixel (s : State) (r : Fin 32) (c : Fin 64) : Byte := s.fb[r][c]

/-- The whole frame buffer written (R27). -/
def setFb (fb : FrameBuffer) (s : State) : State := { s with fb := fb }

/-- `DT <- t` (R30). -/
def setDt (t : Byte) (s : State) : State := { s with dt := t }

/-- `ST <- t` (R30). -/
def setSt (t : Byte) (s : State) : State := { s with st := t }

/-- `pc <- target` (R24). -/
def setPc (target : Word) (s : State) : State := { s with pc := target }

end State

/-- `FB[r][c] <- FB[r][c] ^ 0xFF` (44_display.md R211). -/
def FrameBuffer.flip (fb : FrameBuffer) (r : Fin 32) (c : Fin 64) : FrameBuffer :=
  fb.set r (fb[r].set c (fb[r][c] ^^^ 0xFF))

/-! The epilogue (40_step_cycle.md R120, R123). -/

/-- How an instruction leaves pc (R123). -/
inductive PcOutcome where
  /-- the uniform "advance pc by 2" epilogue -/
  | cont
  /-- a taken skip: 2 more than the epilogue -/
  | skip
  /-- an absolute target, exempt from the epilogue -/
  | jump (target : Word)
  /-- pc stays: a waiting WaitForKey -/
  | hold
deriving DecidableEq, Repr

/-- The pc an outcome gives; sums modulo 65536 (R123, D6: log 5). -/
def nextPc (o : PcOutcome) (pc : Word) : Word :=
  match o with
  | .cont => pc + 2
  | .skip => pc + 4
  | .jump target => target
  | .hold => pc

/-- Skip when the condition holds, else continue (R123, R124). -/
def skipWhen (condition : Bool) : PcOutcome := if condition then .skip else .cont

/-- The end of an instruction: its writes are done, pc gets what its outcome says. A STEP always completes (R120), so
the answer is a next state. -/
def finish (o : PcOutcome) (s : State) : Result := .next (s.setPc (nextPc o s.pc))

end Sys2Proof.Machine
end

