-- ==== Sys2Proof/Machine/Flags.lean ====
section
/-! DEFINITION. The one flag, VF (spec/10_state.md R22): every value an instruction writes into it, 0x00 or 0x01, and
the order of the result and the flag (spec/40_step_cycle.md R125). -/

namespace Sys2Proof.Machine

/-- VF = V[15] (R22). -/
def flagReg : RegIdx := 0xF

/-- A flag as the whole register holds it (R22). -/
def flagByte (b : Bool) : Byte := if b then 0x01 else 0x00

/-- AddCarry: 1 if the sum exceeds 255 before truncation (42_alu.md R166). -/
def carryFlag (a b : Byte) : Byte := flagByte (a.toNat + b.toNat > 255)

/-- SubBorrow with operands (a, b), RevSubBorrow with (b, a): 1 if there is no borrow (R167, R169). -/
def noBorrowFlag (a b : Byte) : Byte := flagByte (a.toNat ≥ b.toNat)

/-- ShiftRight: the bit shifted out, old bit 0 (R168). -/
def shiftRightFlag (a : Byte) : Byte := a &&& 1

/-- ShiftLeft: the bit shifted out, old bit 7 (R170). -/
def shiftLeftFlag (a : Byte) : Byte := a >>> 7

/-- Vx is written first and VF last, so with x = 0xF the flag stands and the result is lost (40_step_cycle.md R125,
D9: log 11). -/
def State.setResultAndFlag (x : RegIdx) (result flag : Byte) (s : State) : State :=
  (s.setReg x result).setReg flagReg flag

end Sys2Proof.Machine
end

