-- ==== Sys2Proof/Machine/Operands.lean ====
section
/-! DEFINITION. The operand forms: every immediate and register operand is unsigned and is widened with zero bits
(spec/30_encoding.md R93); the one addressing mode is I plus an ascending offset (spec/20_memory.md R76). -/

namespace Sys2Proof.Machine

/-- `zext_16(nnn)` (R93). -/
def addrOperand (nnn : Addr12) : Word := nnn.setWidth 16

/-- `zext_16(V[x])` (R93). -/
def State.regWide (s : State) (x : RegIdx) : Word := (s.reg x).setWidth 16

/-- The address `I + k`, modulo 65536 (R76). -/
def State.indexPlus (s : State) (k : Nat) : Word := s.index + BitVec.ofNat 16 k

/-- The key a key skip consults, `V[x] mod 16` (45_keypad_timers_random.md R237, D8: log 12). -/
def State.keyOperand (s : State) (x : RegIdx) : Nibble := (s.reg x).setWidth 4

/-- The three decimal digits of StoreBCD, hundreds first (43_index_memory.md R193). -/
def bcdDigits (a : Byte) : List Byte := [a / 100, (a / 10) % 10, a % 10]

/-- The frame-buffer row of sprite row `r` from origin row `y0`: `(y0 + r) mod 32` (44_display.md R212). -/
def spriteRow (y0 : Byte) (r : Nat) : Fin 32 := Fin.ofNat 32 (y0.toNat + r)

/-- The frame-buffer column of sprite column `c` from origin column `x0`: `(x0 + c) mod 64` (R212). -/
def spriteCol (x0 : Byte) (c : Nat) : Fin 64 := Fin.ofNat 64 (x0.toNat + c)

end Sys2Proof.Machine
end

