-- ==== Sys2Proof/Machine/Alu.lean ====
section
/-! DEFINITION. Register load and ALU instructions (spec/42_alu.md): unsigned 8-bit arithmetic modulo 256 (R172), every
operand read before any write (spec/40_step_cycle.md R125), no flag but where the rule says (R10, D15: log 18). -/

namespace Sys2Proof.Machine

/-- LoadImm (R160). -/
def execLoadImm (x : RegIdx) (kk : Byte) (s : State) : Result := finish .cont (s.setReg x kk)

/-- AddImm (R161): no carry is recorded. -/
def execAddImm (x : RegIdx) (kk : Byte) (s : State) : Result := finish .cont (s.setReg x (s.reg x + kk))

/-- Copy (R162). -/
def execCopy (x y : RegIdx) (s : State) : Result := finish .cont (s.setReg x (s.reg y))

/-- Or (R163). -/
def execOr (x y : RegIdx) (s : State) : Result := finish .cont (s.setReg x (s.reg x ||| s.reg y))

/-- And (R164). -/
def execAnd (x y : RegIdx) (s : State) : Result := finish .cont (s.setReg x (s.reg x &&& s.reg y))

/-- Xor (R165). -/
def execXor (x y : RegIdx) (s : State) : Result := finish .cont (s.setReg x (s.reg x ^^^ s.reg y))

/-- AddCarry (R166). -/
def execAddCarry (x y : RegIdx) (s : State) : Result :=
  finish .cont (s.setResultAndFlag x (s.reg x + s.reg y) (carryFlag (s.reg x) (s.reg y)))

/-- SubBorrow (R167). -/
def execSubBorrow (x y : RegIdx) (s : State) : Result :=
  finish .cont (s.setResultAndFlag x (s.reg x - s.reg y) (noBorrowFlag (s.reg x) (s.reg y)))

/-- ShiftRight (R168): Vx alone, by one. -/
def execShiftRight (x : RegIdx) (s : State) : Result :=
  finish .cont (s.setResultAndFlag x (s.reg x >>> 1) (shiftRightFlag (s.reg x)))

/-- RevSubBorrow (R169). -/
def execRevSubBorrow (x y : RegIdx) (s : State) : Result :=
  finish .cont (s.setResultAndFlag x (s.reg y - s.reg x) (noBorrowFlag (s.reg y) (s.reg x)))

/-- ShiftLeft (R170): Vx alone, by one. -/
def execShiftLeft (x : RegIdx) (s : State) : Result :=
  finish .cont (s.setResultAndFlag x (s.reg x <<< 1) (shiftLeftFlag (s.reg x)))

end Sys2Proof.Machine
end

