-- ==== Sys2Proof/Machine/Control.lean ====
section
/-! DEFINITION. Control transfer (spec/41_control_flow.md) and the unrecognised word (spec/40_step_cycle.md R126). -/

namespace Sys2Proof.Machine

/-- Return (R140): pop the address of the Call into pc, then the epilogue adds 2 to it. -/
def execReturn (s : State) : Result := finish .cont s.popPc

/-- Jump (R141). -/
def execJump (nnn : Addr12) (s : State) : Result := finish (.jump (addrOperand nnn)) s

/-- Call (R142): the address pushed is that of this Call. -/
def execCall (nnn : Addr12) (s : State) : Result := finish (.jump (addrOperand nnn)) (s.push s.pc)

/-- SkipEqImm (R143). -/
def execSkipEqImm (x : RegIdx) (kk : Byte) (s : State) : Result := finish (skipWhen (s.reg x == kk)) s

/-- SkipNeqImm (R144). -/
def execSkipNeqImm (x : RegIdx) (kk : Byte) (s : State) : Result := finish (skipWhen (s.reg x != kk)) s

/-- SkipEqReg (R145). -/
def execSkipEqReg (x y : RegIdx) (s : State) : Result := finish (skipWhen (s.reg x == s.reg y)) s

/-- SkipNeqReg (R146). -/
def execSkipNeqReg (x y : RegIdx) (s : State) : Result := finish (skipWhen (s.reg x != s.reg y)) s

/-- JumpIndexed (R147): the register is always V0. -/
def execJumpIndexed (nnn : Addr12) (s : State) : Result := finish (.jump (addrOperand nnn + s.regWide 0)) s

/-- The unrecognised word (R126): a no-op, whatever the word. -/
def execUnrecognised (_word : Word) (s : State) : Result := finish .cont s

end Sys2Proof.Machine
end

