-- ==== Sys2Proof/Machine/Display.lean ====
section
/-! DEFINITION. Display instructions (spec/44_display.md). -/

namespace Sys2Proof.Machine

/-- Clear (R210). -/
def execClear (s : State) : Result :=
  finish .cont (s.setFb (Vector.replicate 32 (Vector.replicate 64 Config.pixOff)))

/-- What a draw has made so far: the frame buffer, and whether a cell has gone from on to off (R211, R213). -/
structure Canvas where
  fb : FrameBuffer
  collision : Bool
deriving DecidableEq, Repr

/-- One set pixel: note a collision if the cell is fully on, then flip it (R211). -/
def drawPixel (r : Fin 32) (c : Fin 64) (d : Canvas) : Canvas :=
  { fb := FrameBuffer.flip d.fb r c, collision := d.collision || d.fb[r][c] == Config.pixOn }

/-- One row byte, bit 7 leftmost; a zero bit leaves its cell alone (R211). -/
def drawRow (x0 : Byte) (r : Fin 32) (row : Byte) (d : Canvas) : Canvas :=
  [0, 1, 2, 3, 4, 5, 6, 7].foldl
    (fun d c => if row.getLsbD (7 - c) then drawPixel r (spriteCol x0 c) d else d) d

/-- The rows of a sprite, top first, the first of them `r` rows below the origin (R211). -/
def drawRows (x0 y0 : Byte) (r : Nat) : List Byte → Canvas → Canvas
  | [], d => d
  | row :: rows, d => drawRows x0 y0 (r + 1) rows (drawRow x0 (spriteRow y0 r) row d)

/-- DrawSprite (R211 to R214): origin from the old registers (R125), n row bytes from I, VF always written. -/
def execDrawSprite (x y : RegIdx) (n : Nibble) (s : State) : Result :=
  let d := drawRows (s.reg x) (s.reg y) 0 (s.mem.readBytes s.index n.toNat) { fb := s.fb, collision := false }
  finish .cont ((s.setFb d.fb).setReg flagReg (flagByte d.collision))

end Sys2Proof.Machine
end

