-- ==== Sys2Proof/Machine/Environment.lean ====
section
/-! DEFINITION. Keypad, timer and random instructions (spec/45_keypad_timers_random.md). -/

namespace Sys2Proof.Machine

/-- SkipKeyPressed (R230). -/
def execSkipKeyPressed (x : RegIdx) (s : State) : Result := finish (skipWhen (s.keyDown (s.keyOperand x))) s

/-- SkipKeyNotPressed (R231). -/
def execSkipKeyNotPressed (x : RegIdx) (s : State) : Result := finish (skipWhen (!s.keyDown (s.keyOperand x))) s

/-- WaitForKey (R232): with a key in LASTKEY take it, else hold; LASTKEY is not written. -/
def execWaitForKey (x : RegIdx) (s : State) : Result :=
  if s.lastKey.toNat ≤ 15 then finish .cont (s.setReg x s.lastKey) else finish .hold s

/-- ReadDelayTimer (R233). -/
def execReadDelayTimer (x : RegIdx) (s : State) : Result := finish .cont (s.setReg x s.dt)

/-- SetDelayTimer (R234). -/
def execSetDelayTimer (x : RegIdx) (s : State) : Result := finish .cont (s.setDt (s.reg x))

/-- SetSoundTimer (R235). -/
def execSetSoundTimer (x : RegIdx) (s : State) : Result := finish .cont (s.setSt (s.reg x))

/-- Random with the byte `r` drawn (R236). -/
def randomWith (r : Byte) (x : RegIdx) (kk : Byte) (s : State) : State :=
  { s.setReg x (r &&& kk) with draws := s.draws + 1 }

/-- Random (R236): the byte is the next free draw (D16: log 1), fresh at every Random. -/
def execRandom (x : RegIdx) (kk : Byte) (s : State) : Result :=
  finish .cont (randomWith (Config.rnd s.draws) x kk s)

end Sys2Proof.Machine
end

