-- ==== Sys2Proof/Machine/IndexMemory.lean ====
section
/-! DEFINITION. Index register and memory instructions (spec/43_index_memory.md). No access modifies I (R76, D15: log 18). -/

namespace Sys2Proof.Machine

/-- SetIndex (R190). -/
def execSetIndex (nnn : Addr12) (s : State) : Result := finish .cont (s.setIndexReg (addrOperand nnn))

/-- AddIndex (R191): modulo 65536, no flag. -/
def execAddIndex (x : RegIdx) (s : State) : Result := finish .cont (s.setIndexReg (s.index + s.regWide x))

/-- SetIndexToDigitSprite (R192): the whole Vx is multiplied. -/
def execSetIndexToDigitSprite (x : RegIdx) (s : State) : Result := finish .cont (s.setIndexReg (s.regWide x * 5))

/-- StoreBCD (R193). -/
def execStoreBCD (x : RegIdx) (s : State) : Result := finish .cont (s.storeBytes s.index (bcdDigits (s.reg x)))

/-- StoreRegisters (R194): V0 to Vx, ascending from I. -/
def execStoreRegisters (x : RegIdx) (s : State) : Result := finish .cont (s.storeBytes s.index (s.regsUpTo x))

/-- LoadRegisters (R195): V0 to Vx, ascending from I. -/
def execLoadRegisters (x : RegIdx) (s : State) : Result :=
  finish .cont (s.setRegsFrom 0 (s.mem.readBytes s.index (x.toNat + 1)))

end Sys2Proof.Machine
end

