-- ==== Sys2Proof/Machine/Step.lean ====
section
/-! DEFINITION. One STEP (spec/40_step_cycle.md R120, spec/50_interface.md R253). -/

namespace Sys2Proof.Machine

/-- STEP: fetch the word at pc, decode it, execute it (R120 to R123). -/
def step (s : State) : Host.Outcome State Fault Refusal := exec (decodeWord (s.wordAt s.pc)) s

/-- `s` with the table word `w` stored where STEP fetches: at the two effective addresses of pc, high byte first
(R121). It stands for the host's LOAD of the program's first word (log 20); bits above the 16 of an instruction are
dropped (log 25). -/
def State.withFetchWord (s : State) (nbits w : Nat) : State :=
  s.storeBytes s.pc (bytesOfWord (BitVec.ofNat 16 (w % 2 ^ nbits)))

end Sys2Proof.Machine
end

