-- ==== Sys2Proof/Machine/Transactions.lean ====
section
/-! DEFINITION. The transactions of the host (spec/50_interface.md R250), STEP among them, each one atomic (R251):
log 20. -/

namespace Sys2Proof.Machine

/-- What the host can issue (R250). A key number outside 0 to 15 is no transaction (R255). -/
inductive Transaction where
  /-- RESET, 70_reset_and_hazards.md R310 -/
  | reset
  /-- LOAD(image), R252 -/
  | load (image : List Byte)
  /-- STEP, R253; the draw of a Random is the random source's next (log 1) -/
  | step
  /-- TICK, R254 -/
  | tick
  /-- KEYWRITE(k, b), R255 -/
  | keyWrite (k : Nibble) (down : Bool)
  /-- LASTKEYWRITE(v), R256 -/
  | lastKeyWrite (value : Byte)
  /-- the read-out of the frame buffer, R257 -/
  | readFrameBuffer
  /-- the read-out of DT, R257 -/
  | readDelay
  /-- the read-out of ST, R257 -/
  | readSound
  /-- the derived observation sound_on, 60_exceptions.md R291 -/
  | readSoundOn
deriving DecidableEq, Repr

/-- What a transaction tells the host (R250, R252, R257, R260). -/
inductive Reply where
  /-- nothing to report -/
  | done
  /-- the result Ok of LOAD -/
  | ok
  /-- the result LoadError of LOAD, no exception of the machine (60_exceptions.md R282) -/
  | loadError
  /-- the 2048 cells, cell (r, c) at r * 64 + c (R257) -/
  | cells (bytes : List Byte)
  /-- a timer's value -/
  | timer (value : Byte)
  /-- whether the sound timer is above zero -/
  | sound (on : Bool)
deriving DecidableEq, Repr

/-- RESET (70_reset_and_hazards.md R310): every item of R20 at its reset value. The random source is not reseeded
(10_state.md R34, R37), so the count of its draws goes on: log 2. -/
def resetTransaction (s : State) : State := { State.reset with draws := s.draws }

/-- LOAD (50_interface.md R252): an image longer than 3584 bytes is rejected whole (D13: log 16). -/
def load (image : List Byte) (s : State) : State × Reply :=
  if image.length > Config.progMax then (s, .loadError) else (s.storeBytes Config.progBase image, .ok)

/-- A timer's TICK: down by one if above zero (60_exceptions.md R290, D12: log 15). -/
def countDown (t : Byte) : Byte := if t.toNat > 0 then t - 1 else t

/-- TICK (R290). -/
def tick (s : State) : State := (s.setDt (countDown s.dt)).setSt (countDown s.st)

/-- KEYWRITE (50_interface.md R255). -/
def keyWrite (k : Nibble) (down : Bool) (s : State) : State := { s with key := s.key.set k.toNat down }

/-- LASTKEYWRITE (R256). -/
def lastKeyWrite (value : Byte) (s : State) : State := { s with lastKey := value }

/-- The linear view of the frame buffer, row by row (R257, D17: log 24). -/
def frameBufferView (s : State) : List Byte := s.fb.toList.flatMap Vector.toList

/-- `sound_on = (ST > 0)` (60_exceptions.md R291, D25: log 24). -/
def soundOn (s : State) : Bool := s.st.toNat > 0

/-- The effect and the reply of a transaction (R250). -/
def transact (t : Transaction) (s : State) : Host.Outcome (State × Reply) Fault Refusal :=
  match t with
  | .reset => .next (resetTransaction s, .done)
  | .load image => .next (load image s)
  | .step =>
    match step s with
    | .next s' => .next (s', .done)
    | .fault r => .fault r
    | .refused r => .refused r
  | .tick => .next (tick s, .done)
  | .keyWrite k down => .next (keyWrite k down s, .done)
  | .lastKeyWrite value => .next (lastKeyWrite value s, .done)
  | .readFrameBuffer => .next (s, .cells (frameBufferView s))
  | .readDelay => .next (s, .timer s.dt)
  | .readSound => .next (s, .timer s.st)
  | .readSoundOn => .next (s, .sound (soundOn s))

/-- Transactions one after another, in the total order the host gives them (R251, R258). -/
def runTransactions : List Transaction → State → Host.Outcome State Fault Refusal
  | [], s => .next s
  | t :: ts, s =>
    match transact t s with
    | .next (s', _) => runTransactions ts s'
    | .fault r => .fault r
    | .refused r => .refused r

end Sys2Proof.Machine
end

