-- ==== Sys2Proof/Safety.lean ====
section
/-! DEFINITION. The terms claims are stated in: the places state is held, what each instruction reads and writes
(spec/10_state.md R36), how each leaves pc (R24), the invariant of every reachable state (R38). Written from the spec's
tables, not from the meanings. -/

namespace Sys2Proof.Machine

/-- A place of the state, as small as an instruction reads or writes it (the items of 10_state.md R20). A memory place is
named by any 16-bit address of it (20_memory.md R61). -/
inductive Loc where
  | reg (r : RegIdx)
  | index
  | pc
  | sp
  | stack (k : Nibble)
  | mem (a : Word)
  | pixel (r : Fin 32) (c : Fin 64)
  | key (k : Nibble)
  | lastKey
  | dt
  | st
  /-- the model's own count of draws (log 1) -/
  | draws
deriving DecidableEq, Repr

/-- What a place holds. -/
def State.get (s : State) : Loc → Nat
  | .reg r => (s.reg r).toNat
  | .index => s.index.toNat
  | .pc => s.pc.toNat
  | .sp => s.sp.toNat
  | .stack k => (s.stackAt k).toNat
  | .mem a => (s.byteAt a).toNat
  | .pixel r c => (s.pixel r c).toNat
  | .key k => (s.keyDown k).toNat
  | .lastKey => s.lastKey.toNat
  | .dt => s.dt.toNat
  | .st => s.st.toNat
  | .draws => s.draws

/-- Every place outside `changed` holds in `t` what it holds in `s`: the frame of a change. -/
def OnlyChanges (changed : Loc → Prop) (s t : State) : Prop := ∀ l, ¬ changed l → t.get l = s.get l

/-- The invariant of every reachable state (R38, R27): memory in canonical form, every frame-buffer cell fully off or
fully on. -/
def State.Inv (s : State) : Prop :=
  s.mem.wf ∧ ∀ r c, s.pixel r c = Config.pixOff ∨ s.pixel r c = Config.pixOn

/-- The cell (r, c) lies under a set bit of the sprite that DrawSprite Vx, Vy, n draws in `s`: sprite row k, column j,
bit 7 - j of the byte at I + k, moved by the origin and wrapped per pixel (44_display.md R211, R212). -/
def State.underSprite (s : State) (x y : RegIdx) (n : Nibble) (r : Fin 32) (c : Fin 64) : Prop :=
  ∃ k < n.toNat, ∃ j < 8, (s.byteAt (s.indexPlus k)).getLsbD (7 - j) = true ∧
    r.val = ((s.reg y).toNat + k) % 32 ∧ c.val = ((s.reg x).toNat + j) % 64

end Sys2Proof.Machine

namespace Sys2Proof

open Machine

/-- The write column of R36, down to the place, with pc (R24). -/
def Instr.writes (s : State) : Instr → Loc → Prop
  | .clear, l => l = .pc ∨ ∃ r c, l = .pixel r c
  | .ret, l => l = .pc ∨ l = .sp
  | .jump _, l => l = .pc
  | .call _, l => l = .pc ∨ l = .sp ∨ l = .stack s.sp
  | .skipEqImm _ _, l => l = .pc
  | .skipNeqImm _ _, l => l = .pc
  | .skipEqReg _ _, l => l = .pc
  | .loadImm x _, l => l = .pc ∨ l = .reg x
  | .addImm x _, l => l = .pc ∨ l = .reg x
  | .copy x _, l => l = .pc ∨ l = .reg x
  | .or x _, l => l = .pc ∨ l = .reg x
  | .and x _, l => l = .pc ∨ l = .reg x
  | .xor x _, l => l = .pc ∨ l = .reg x
  | .addCarry x _, l => l = .pc ∨ l = .reg x ∨ l = .reg 0xF
  | .subBorrow x _, l => l = .pc ∨ l = .reg x ∨ l = .reg 0xF
  | .shiftRight x, l => l = .pc ∨ l = .reg x ∨ l = .reg 0xF
  | .revSubBorrow x _, l => l = .pc ∨ l = .reg x ∨ l = .reg 0xF
  | .shiftLeft x, l => l = .pc ∨ l = .reg x ∨ l = .reg 0xF
  | .skipNeqReg _ _, l => l = .pc
  | .setIndex _, l => l = .pc ∨ l = .index
  | .jumpIndexed _, l => l = .pc
  | .random x _, l => l = .pc ∨ l = .reg x ∨ l = .draws
  | .drawSprite x y n, l => l = .pc ∨ l = .reg 0xF ∨ ∃ r c, l = .pixel r c ∧ s.underSprite x y n r c
  | .skipKeyPressed _, l => l = .pc
  | .skipKeyNotPressed _, l => l = .pc
  | .readDelayTimer x, l => l = .pc ∨ l = .reg x
  | .waitForKey x, l => s.lastKey.toNat ≤ 15 ∧ (l = .pc ∨ l = .reg x)
  | .setDelayTimer _, l => l = .pc ∨ l = .dt
  | .setSoundTimer _, l => l = .pc ∨ l = .st
  | .addIndex _, l => l = .pc ∨ l = .index
  | .setIndexToDigitSprite _, l => l = .pc ∨ l = .index
  | .storeBCD _, l => l = .pc ∨ ∃ a, l = .mem a ∧ ∃ k < 3, ea a = ea (s.indexPlus k)
  | .storeRegisters x, l => l = .pc ∨ ∃ a, l = .mem a ∧ ∃ k ≤ x.toNat, ea a = ea (s.indexPlus k)
  | .loadRegisters x, l => l = .pc ∨ ∃ r, l = .reg r ∧ r.toNat ≤ x.toNat
  | .unrecognised _, l => l = .pc

/-- The read column of R36, down to the place, with the pc that the epilogue advances (R123). The fetch is not part of
it. -/
def Instr.reads (s : State) : Instr → Loc → Prop
  | .clear, l => l = .pc
  | .ret, l => l = .sp ∨ l = .stack (s.sp - 1)
  | .jump _, _ => False
  | .call _, l => l = .pc ∨ l = .sp
  | .skipEqImm x _, l => l = .pc ∨ l = .reg x
  | .skipNeqImm x _, l => l = .pc ∨ l = .reg x
  | .skipEqReg x y, l => l = .pc ∨ l = .reg x ∨ l = .reg y
  | .loadImm _ _, l => l = .pc
  | .addImm x _, l => l = .pc ∨ l = .reg x
  | .copy _ y, l => l = .pc ∨ l = .reg y
  | .or x y, l => l = .pc ∨ l = .reg x ∨ l = .reg y
  | .and x y, l => l = .pc ∨ l = .reg x ∨ l = .reg y
  | .xor x y, l => l = .pc ∨ l = .reg x ∨ l = .reg y
  | .addCarry x y, l => l = .pc ∨ l = .reg x ∨ l = .reg y
  | .subBorrow x y, l => l = .pc ∨ l = .reg x ∨ l = .reg y
  | .shiftRight x, l => l = .pc ∨ l = .reg x
  | .revSubBorrow x y, l => l = .pc ∨ l = .reg x ∨ l = .reg y
  | .shiftLeft x, l => l = .pc ∨ l = .reg x
  | .skipNeqReg x y, l => l = .pc ∨ l = .reg x ∨ l = .reg y
  | .setIndex _, l => l = .pc
  | .jumpIndexed _, l => l = .reg 0
  | .random _ _, l => l = .pc ∨ l = .draws
  | .drawSprite x y n, l =>
    l = .pc ∨ l = .reg x ∨ l = .reg y ∨ l = .index ∨ (∃ k < n.toNat, l = .mem (s.indexPlus k)) ∨
      ∃ r c, l = .pixel r c ∧ s.underSprite x y n r c
  | .skipKeyPressed x, l => l = .pc ∨ l = .reg x ∨ l = .key (s.keyOperand x)
  | .skipKeyNotPressed x, l => l = .pc ∨ l = .reg x ∨ l = .key (s.keyOperand x)
  | .readDelayTimer _, l => l = .pc ∨ l = .dt
  | .waitForKey _, l => l = .pc ∨ l = .lastKey
  | .setDelayTimer x, l => l = .pc ∨ l = .reg x
  | .setSoundTimer x, l => l = .pc ∨ l = .reg x
  | .addIndex x, l => l = .pc ∨ l = .index ∨ l = .reg x
  | .setIndexToDigitSprite x, l => l = .pc ∨ l = .reg x
  | .storeBCD x, l => l = .pc ∨ l = .index ∨ l = .reg x
  | .storeRegisters x, l => l = .pc ∨ l = .index ∨ ∃ r, l = .reg r ∧ r.toNat ≤ x.toNat
  | .loadRegisters x, l => l = .pc ∨ l = .index ∨ ∃ k ≤ x.toNat, l = .mem (s.indexPlus k)
  | .unrecognised _, l => l = .pc

/-- pc after an instruction, by R24's table and 41_control_flow.md R148; sums modulo 65536. -/
def Instr.pcAfter (s : State) : Instr → Word
  | .ret => s.stackAt (s.sp - 1) + 2
  | .jump nnn => addrOperand nnn
  | .call nnn => addrOperand nnn
  | .jumpIndexed nnn => addrOperand nnn + s.regWide 0
  | .skipEqImm x kk => if s.reg x = kk then s.pc + 4 else s.pc + 2
  | .skipNeqImm x kk => if s.reg x = kk then s.pc + 2 else s.pc + 4
  | .skipEqReg x y => if s.reg x = s.reg y then s.pc + 4 else s.pc + 2
  | .skipNeqReg x y => if s.reg x = s.reg y then s.pc + 2 else s.pc + 4
  | .skipKeyPressed x => if s.keyDown (s.keyOperand x) = true then s.pc + 4 else s.pc + 2
  | .skipKeyNotPressed x => if s.keyDown (s.keyOperand x) = true then s.pc + 2 else s.pc + 4
  | .waitForKey _ => if s.lastKey.toNat ≤ 15 then s.pc + 2 else s.pc
  | .clear | .loadImm _ _ | .addImm _ _ | .copy _ _ | .or _ _ | .and _ _ | .xor _ _ | .addCarry _ _
  | .subBorrow _ _ | .shiftRight _ | .revSubBorrow _ _ | .shiftLeft _ | .setIndex _ | .random _ _
  | .drawSprite _ _ _ | .readDelayTimer _ | .setDelayTimer _ | .setSoundTimer _ | .addIndex _
  | .setIndexToDigitSprite _ | .storeBCD _ | .storeRegisters _ | .loadRegisters _ | .unrecognised _ => s.pc + 2

/-- How many of the 256 words of one class and one x nibble are unrecognised (30_encoding.md R97 counts them). -/
def unrecognisedCount (cls x : Nibble) : Nat :=
  (List.range 256).countP fun kk =>
    decodeWord (formI cls x (BitVec.ofNat 8 kk)) = .unrecognised (formI cls x (BitVec.ofNat 8 kk))

/-- Control flow in the sense of 40_step_cycle.md R127: a jump, call or return, a skip whose condition holds, a
WaitForKey without a key. -/
def Instr.divertsControl (s : State) : Instr → Prop
  | .ret | .jump _ | .call _ | .jumpIndexed _ => True
  | .skipEqImm x kk => s.reg x = kk
  | .skipNeqImm x kk => s.reg x ≠ kk
  | .skipEqReg x y => s.reg x = s.reg y
  | .skipNeqReg x y => s.reg x ≠ s.reg y
  | .skipKeyPressed x => s.keyDown (s.keyOperand x) = true
  | .skipKeyNotPressed x => s.keyDown (s.keyOperand x) = false
  | .waitForKey _ => s.lastKey.toNat > 15
  | .clear | .loadImm _ _ | .addImm _ _ | .copy _ _ | .or _ _ | .and _ _ | .xor _ _ | .addCarry _ _
  | .subBorrow _ _ | .shiftRight _ | .revSubBorrow _ _ | .shiftLeft _ | .setIndex _ | .random _ _
  | .drawSprite _ _ _ | .readDelayTimer _ | .setDelayTimer _ | .setSoundTimer _ | .addIndex _
  | .setIndexToDigitSprite _ | .storeBCD _ | .storeRegisters _ | .loadRegisters _ | .unrecognised _ => False

end Sys2Proof

namespace Sys2Proof.Machine

/-- The instruction STEP runs next: the one decoded from the word at pc (R120). -/
def State.nextInstr (s : State) : Instr := decodeWord (s.wordAt s.pc)

/-- Instructions executed one after another, each on the state the one before left. -/
def execAll : List Instr → State → Result
  | [], s => .next s
  | i :: is, s =>
    match exec i s with
    | .next t => execAll is t
    | .fault r => .fault r
    | .refused r => .refused r

/-- The opcodes with `op & mask = matched` are those of the instruction `f op` (30_encoding.md R96). -/
def Encodes (mask matched : Word) (f : Word → Instr) : Prop := ∀ op : Word, op &&& mask = matched → decodeWord op = f op

end Sys2Proof.Machine
end

