-- ==== Sys2Proof/Certificates/Slice0/Obligations.lean ====
section
/-! DEFINITION. The statements for the provers, from the numbered rules of spec/. -/

open Sys2Proof Sys2Proof.Machine

/-! ## Encoding -/

/-- Every well-formed instruction decodes from its own bytes, with every operand, whatever follows (30_encoding.md,
decision D2: log 7). -/
def Obligations.DecodeInvertsEncode : Prop :=
  ∀ i : Instr, i.wellFormed = true → ∀ rest, decodeBytes (encode i ++ rest) = .ok (i, rest)

/-- The decoder of R104 agrees with the masks and matches of R96 on all 65536 words, decides nothing twice, and leaves to
the unrecognised word exactly the words of no row (30_encoding.md R96, R100, decision D2: log 7). -/
def Obligations.DecodeFollowsOpcodeMap : Prop :=
  ∀ op : Word, (decodeWord op).wellFormed = true ∧
    (∀ r ∈ opcodeMap, op &&& r.2.1 = r.2.2 ↔ (decodeWord op).mnemonic = r.1) ∧
    ((∀ r ∈ opcodeMap, op &&& r.2.1 ≠ r.2.2) ↔ decodeWord op = .unrecognised op)

/-- R97: a word is unrecognised exactly when its class's row of R97's table says so; the table's counts; 0x0000 is one; and
such a word, fetched, is a no-op that advances pc by 2. -/
def Obligations.UnrecognisedWordsAreTheTabulatedNoOps : Prop :=
  (∀ op : Word, (decodeWord op = .unrecognised op ↔
      (fieldClass op = 0x0 ∧ fieldKK op ∉ [0xE0, 0xEE]) ∨
      (fieldClass op = 0x8 ∧ fieldN op ∈ [0x8, 0x9, 0xA, 0xB, 0xC, 0xD, 0xF]) ∨
      (fieldClass op = 0xE ∧ fieldKK op ∉ [0x9E, 0xA1]) ∨
      (fieldClass op = 0xF ∧ fieldKK op ∉ [0x07, 0x0A, 0x15, 0x18, 0x1E, 0x29, 0x33, 0x55, 0x65]))) ∧
  (∀ cls x : Nibble, unrecognisedCount cls x =
    if cls = 0x0 then 254 else if cls = 0x8 then 16 * 7 else if cls = 0xE then 254 else if cls = 0xF then 247 else 0) ∧
  ((List.range 16).map fun cls => ((List.range 16).map fun x =>
    unrecognisedCount (BitVec.ofNat 4 cls) (BitVec.ofNat 4 x)).sum).sum = 13872 ∧
  decodeWord 0x0000 = .unrecognised 0x0000 ∧
  ∀ s : State, s.nextInstr = .unrecognised (s.wordAt s.pc) → step s = .next { s with pc := s.pc + 2 }

/-- Encoding what a word decodes to gives the word with its ignored bits zero, and decodes to the same: no other bit of a
word is dropped (30_encoding.md R98). -/
def Obligations.CanonicalWordClearsOnlyIgnoredBits : Prop :=
  ∀ op : Word, encodeWord (decodeWord op) = op &&& ~~~ ignoredBits op ∧
    decodeWord (encodeWord (decodeWord op)) = decodeWord op

/-- The worked encodings of R103, byte pairs written out. -/
def Obligations.WorkedEncodingsDecode : Prop :=
  decodeBytes [0x00, 0xE0] = .ok (.clear, []) ∧ decodeBytes [0x00, 0xEE] = .ok (.ret, []) ∧
  decodeBytes [0x12, 0x00] = .ok (.jump 0x200, []) ∧ decodeBytes [0x2A, 0xBC] = .ok (.call 0xABC, []) ∧
  decodeBytes [0x3F, 0x01] = .ok (.skipEqImm 0xF 0x01, []) ∧ decodeBytes [0x65, 0xFF] = .ok (.loadImm 0x5 0xFF, []) ∧
  decodeBytes [0x83, 0xA4] = .ok (.addCarry 0x3 0xA, []) ∧ decodeBytes [0x81, 0x2E] = .ok (.shiftLeft 0x1, []) ∧
  decodeBytes [0x81, 0x28] = .ok (.unrecognised 0x8128, []) ∧ decodeBytes [0x5A, 0xB3] = .ok (.skipEqReg 0xA 0xB, []) ∧
  decodeBytes [0xD0, 0x15] = .ok (.drawSprite 0x0 0x1 0x5, []) ∧ decodeBytes [0xE3, 0x9E] = .ok (.skipKeyPressed 0x3, []) ∧
  decodeBytes [0xE3, 0x9F] = .ok (.unrecognised 0xE39F, []) ∧ decodeBytes [0xF2, 0x33] = .ok (.storeBCD 0x2, []) ∧
  decodeBytes [0xFF, 0x65] = .ok (.loadRegisters 0xF, []) ∧ decodeBytes [0x00, 0x00] = .ok (.unrecognised 0x0000, []) ∧
  decodeBytes [0x01, 0xE0] = .ok (.clear, [])

/-! ## The step -/

/-- STEP is exec of the instruction the bytes at pc decode to (40_step_cycle.md R120 to R122). The fetch adds nothing
around exec: pc is advanced by the instruction itself. -/
def Obligations.StepRunsTheDecodedInstruction : Prop :=
  ∀ (s : State) (i : Instr) (rest : List Byte),
    decodeBytes [s.byteAt s.pc, s.byteAt (s.pc + 1)] = .ok (i, rest) → step s = exec i s

/-- R62: the opcode STEP executes has the byte at pc in bits 15:8 and the byte at pc + 1 in bits 7:0. -/
def Obligations.FetchIsBigEndian : Prop :=
  ∀ (s : State) (op : Word), op.extractLsb' 8 8 = s.byteAt s.pc → op.extractLsb' 0 8 = s.byteAt (s.pc + 1) →
    step s = exec (decodeWord op) s

/-- R260: every STEP and every transaction completes, and none reports an error but a LOAD that is too long. -/
def Obligations.OnlyLoadReportsAnError : Prop :=
  (∀ s, ∃ t, step s = .next t) ∧
  ∀ (tr : Transaction) (s : State), ∃ t reply, transact tr s = .next (t, reply) ∧
    (reply = .loadError → ∃ image, tr = .load image ∧ image.length > 3584)

/-- Every instruction, in every state, completes and leaves pc as the table of 10_state.md R24 says (pc arithmetic modulo
65536 is decision D6: log 5, the stack's is D7: log 6, the key number is D8: log 12). -/
def Obligations.EveryInstructionLeavesPcAsTabulated : Prop :=
  ∀ (i : Instr) (s : State), ∃ t, exec i s = .next t ∧ t.pc = i.pcAfter s

/-- R127: (a) a Jump sets pc exactly and the next step runs the word there; (b) k steps through instructions none of which
diverts control advance pc by exactly 2k bytes, from 0x200 after RESET and LOAD. -/
def Obligations.JumpIsExactAndStraightLineAdvancesByLength : Prop :=
  (∀ s : State, s.nextInstr = .jump 0x300 → ∃ t, step s = .next t ∧ t.pc = 0x300 ∧
    step t = exec (decodeWord (t.byteAt 0x300 ++ t.byteAt 0x301)) t) ∧
  (∀ (k : Nat) (s : State),
    (∀ j < k, ∀ u, Sys2Proof.core.run j s = .next u → ¬ u.nextInstr.divertsControl u) →
    ∃ t, Sys2Proof.core.run k s = .next t ∧ t.pc = s.pc + BitVec.ofNat 16 (2 * k)) ∧
  ∀ (k : Nat) (image : List Byte) (s₀ s : State), image.length = 2 * k → image.length ≤ 3584 →
    runTransactions [.reset, .load image] s₀ = .next s →
    (∀ j < k, ∀ u, Sys2Proof.core.run j s = .next u → ¬ u.nextInstr.divertsControl u) →
    ∃ t, Sys2Proof.core.run k s = .next t ∧ t.pc.toNat = 0x200 + image.length

/-- A step changes no state at all exactly at a Jump to itself, a JumpIndexed to itself and a WaitForKey without a key
(70_reset_and_hazards.md R326, decision D20). That LASTKEY 16 and above is no key is decision D22: log 19; pc modulo 65536
is D6: log 5; SP modulo 16, by which Call and Return always change the state, is D7: log 6. -/
def Obligations.QuiescentStatesAreTheThreeKinds : Prop :=
  ∀ s : State, step s = .next s ↔
    (∃ nnn, s.nextInstr = .jump nnn ∧ s.pc.toNat = nnn.toNat) ∨
    (∃ nnn, s.nextInstr = .jumpIndexed nnn ∧ nnn.toNat + (s.reg 0).toNat = s.pc.toNat) ∨
    (∃ x, s.nextInstr = .waitForKey x ∧ s.lastKey.toNat ≥ 16)

/-- A store into the two bytes after its own instruction is what the next step executes (20_memory.md R72). -/
def Obligations.StoresAreSeenByTheNextFetch : Prop :=
  ∀ (s : State) (x : RegIdx), s.mem.wf → s.nextInstr = .storeRegisters x → x.toNat ≥ 1 → s.index = s.pc + 2 →
    ∃ t, step s = .next t ∧ step t = exec (decodeWord (s.reg 0 ++ s.reg 1)) t

/-! ## Invariants and whole-machine rules -/

/-- Every step keeps memory canonical and every frame-buffer cell fully off or fully on (10_state.md R27, R38). -/
def Obligations.StepKeepsInvariant : Prop := ∀ s t : State, s.Inv → step s = .next t → t.Inv

/-- The invariant holds after reset. -/
def Obligations.ResetSatisfiesInvariant : Prop := State.reset.Inv

/-- The invariant holds of every state that transactions of the host reach from a state that has it (10_state.md R38). -/
def Obligations.TransactionsKeepInvariant : Prop :=
  ∀ (ts : List Transaction) (s t : State), s.Inv → runTransactions ts s = .next t → t.Inv

/-- States with canonical memories that hold the same in every place are the same state: a frame that covers every place
covers everything (the canonical form is the model's: log 3). -/
def Obligations.StatesAreDeterminedByTheirPlaces : Prop :=
  ∀ s t : State, s.mem.wf → t.mem.wf → (∀ l, s.get l = t.get l) → s = t

/-- The write column of 10_state.md R36: no instruction changes a place outside its write set. Random also writes the
model's own draw count: log 1. That I and VF are not in more write sets is decision D15: log 18; the places of a store wrap
by D5: log 4; SP modulo 16 is D7: log 6; LASTKEY 16 and above is no key by D22: log 19. -/
def Obligations.InstructionsWriteOnlyTheirWriteSet : Prop :=
  ∀ (i : Instr) (s : State), ∃ t, exec i s = .next t ∧ OnlyChanges (i.writes s) s t

/-- The read column of R36: two states that agree on what an instruction reads get the same in everything it writes,
whatever else they differ in. Canonical memories are a premise (StepKeepsInvariant). Random reads and uses up the model's
own draw count: log 1. The places of a store, a load or a draw wrap by decision D5: log 4; the key of a key skip is D8:
log 12; reading old values first is D9: log 11; LASTKEY 16 and above is no key by D22: log 19. -/
def Obligations.ResultsDependOnlyOnTheReadSet : Prop :=
  ∀ (i : Instr) (s₁ s₂ t₁ t₂ : State), s₁.mem.wf → s₂.mem.wf → exec i s₁ = .next t₁ → exec i s₂ = .next t₂ →
    (∀ l, i.reads s₁ l → s₁.get l = s₂.get l) → ∀ l, i.writes s₁ l → t₁.get l = t₂.get l

/-- What each item of state may be changed by, as 10_state.md R23, R25 to R30 and 20_memory.md R65 say: a step never
writes the keys or LASTKEY, and every other special item only at its own instructions. That I is not advanced by the memory
and draw instructions is decision D15: log 18. -/
def Obligations.StepChangesEachItemOnlyAtItsInstructions : Prop :=
  ∀ s t : State, step s = .next t →
    t.key = s.key ∧ t.lastKey = s.lastKey ∧
    (t.index = s.index ∨ s.nextInstr.mnemonic ∈ ["SetIndex", "AddIndex", "SetIndexToDigitSprite"]) ∧
    (t.sp = s.sp ∨ s.nextInstr.mnemonic ∈ ["Call", "Return"]) ∧
    (t.stack = s.stack ∨ s.nextInstr.mnemonic = "Call") ∧
    (t.mem = s.mem ∨ s.nextInstr.mnemonic ∈ ["StoreBCD", "StoreRegisters"]) ∧
    (t.fb = s.fb ∨ s.nextInstr.mnemonic ∈ ["Clear", "DrawSprite"]) ∧
    (t.dt = s.dt ∨ s.nextInstr.mnemonic = "SetDelayTimer") ∧
    (t.st = s.st ∨ s.nextInstr.mnemonic = "SetSoundTimer")

/-- VF (10_state.md R22): the six flag-writing instructions leave 0 or 1 in it, and every other instruction leaves it alone
unless VF is among the registers it names as destination. -/
def Obligations.FlagIsZeroOrOneAndOtherwiseUntouched : Prop :=
  ∀ (i : Instr) (s t : State), exec i s = .next t →
    if i.mnemonic ∈ ["AddCarry", "SubBorrow", "ShiftRight", "RevSubBorrow", "ShiftLeft", "DrawSprite"] then
      t.reg 0xF = 0x00 ∨ t.reg 0xF = 0x01
    else t.reg 0xF = s.reg 0xF ∨ i.writes s (.reg 0xF)

/-! ## Control transfer -/

/-- R126: an unrecognised word advances pc by 2 and changes nothing else, as an instruction and as a step at any word that
matches no row of the opcode map. -/
def Obligations.UnrecognisedWordIsANoOp : Prop :=
  (∀ (w : Word) (s : State), exec (.unrecognised w) s = .next { s with pc := s.pc + 2 }) ∧
  ∀ s : State, (∀ r ∈ opcodeMap, s.wordAt s.pc &&& r.2.1 ≠ r.2.2) → step s = .next { s with pc := s.pc + 2 }

/-- R141: Jump sets pc to its address and changes nothing else. -/
def Obligations.JumpGoesToItsAddress : Prop :=
  Encodes 0xF000 0x1000 (fun op => .jump (fieldNNN op)) ∧
  ∀ (nnn : Addr12) (s : State), ∃ t, exec (.jump nnn) s = .next t ∧ t.pc.toNat = nnn.toNat ∧
    OnlyChanges (· ∈ [.pc]) s t

/-- Call (41_control_flow.md R142): the entry at SP gets the address of the Call itself, SP goes up by one modulo 16
(decision D7: log 6), pc goes to the address. -/
def Obligations.CallPushesItsOwnAddress : Prop :=
  ∀ (nnn : Addr12) (s : State), ∃ t, exec (.call nnn) s = .next t ∧
    t.stackAt s.sp = s.pc ∧ t.sp.toNat = (s.sp.toNat + 1) % 16 ∧ t.pc.toNat = nnn.toNat ∧
    OnlyChanges (· ∈ [.pc, .sp, .stack s.sp]) s t

/-- Return (R140): SP goes down by one modulo 16 (decision D7: log 6), pc is 2 past the address in the entry there, and the
entry keeps its value. -/
def Obligations.ReturnGoesTwoPastTheCall : Prop :=
  ∀ s : State, ∃ t, exec .ret s = .next t ∧
    t.sp.toNat = (s.sp.toNat + 15) % 16 ∧ t.pc.toNat = ((s.stackAt t.sp).toNat + 2) % 65536 ∧
    OnlyChanges (· ∈ [.pc, .sp]) s t

/-- A Call and the Return that pops its entry come back to 2 past the Call (R148), whatever ran between, if SP and the
entry are as the Call left them; and up to sixteen nested Calls return (10_state.md R25, decision D7: log 6). -/
def Obligations.NestedCallsReturn : Prop :=
  (∀ (nnn : Addr12) (s t u w : State), exec (.call nnn) s = .next t → u.sp = t.sp →
    u.stackAt s.sp = t.stackAt s.sp → exec .ret u = .next w → w.pc = s.pc + 2 ∧ w.sp = s.sp) ∧
  ∀ (targets : List Addr12) (s : State), targets ≠ [] → targets.length ≤ 16 →
    ∃ t, execAll (targets.map .call ++ List.replicate targets.length .ret) s = .next t ∧
      t.pc = s.pc + 2 ∧ t.sp = s.sp

/-- R143 to R146: the four compare-and-skip instructions. -/
def Obligations.CompareSkipsPassOverOneInstruction : Prop :=
  Encodes 0xF000 0x3000 (fun op => .skipEqImm (fieldX op) (fieldKK op)) ∧
  Encodes 0xF000 0x4000 (fun op => .skipNeqImm (fieldX op) (fieldKK op)) ∧
  Encodes 0xF000 0x5000 (fun op => .skipEqReg (fieldX op) (fieldY op)) ∧
  Encodes 0xF000 0x9000 (fun op => .skipNeqReg (fieldX op) (fieldY op)) ∧
  ∀ (x y : RegIdx) (kk : Byte) (s : State),
    exec (.skipEqImm x kk) s = .next { s with pc := if s.reg x = kk then s.pc + 4 else s.pc + 2 } ∧
    exec (.skipNeqImm x kk) s = .next { s with pc := if s.reg x ≠ kk then s.pc + 4 else s.pc + 2 } ∧
    exec (.skipEqReg x y) s = .next { s with pc := if s.reg x = s.reg y then s.pc + 4 else s.pc + 2 } ∧
    exec (.skipNeqReg x y) s = .next { s with pc := if s.reg x ≠ s.reg y then s.pc + 4 else s.pc + 2 }

/-- JumpIndexed (R147): the address plus V0, which never wraps 16 bits. -/
def Obligations.JumpIndexedAddsV0 : Prop :=
  Encodes 0xF000 0xB000 (fun op => .jumpIndexed (fieldNNN op)) ∧
  ∀ (nnn : Addr12) (s : State), ∃ t, exec (.jumpIndexed nnn) s = .next t ∧
    t.pc.toNat = nnn.toNat + (s.reg 0).toNat ∧ t.pc.toNat ≤ 0x10FE ∧ OnlyChanges (· ∈ [.pc]) s t

/-! ## Register load and ALU -/

/-- R160, R161, R162: LoadImm, AddImm and Copy, for every register, VF among them. -/
def Obligations.LoadAddImmAndCopyWriteOneRegister : Prop :=
  Encodes 0xF000 0x6000 (fun op => .loadImm (fieldX op) (fieldKK op)) ∧
  Encodes 0xF000 0x7000 (fun op => .addImm (fieldX op) (fieldKK op)) ∧
  Encodes 0xF00F 0x8000 (fun op => .copy (fieldX op) (fieldY op)) ∧
  ∀ (x y : RegIdx) (kk : Byte) (s : State),
    (∃ t, exec (.loadImm x kk) s = .next t ∧ t.reg x = kk ∧ t.pc = s.pc + 2 ∧ OnlyChanges (· ∈ [.pc, .reg x]) s t) ∧
    (∃ t, exec (.addImm x kk) s = .next t ∧ (t.reg x).toNat = ((s.reg x).toNat + kk.toNat) % 256 ∧ t.pc = s.pc + 2 ∧
      OnlyChanges (· ∈ [.pc, .reg x]) s t) ∧
    (∃ t, exec (.copy x y) s = .next t ∧ t.reg x = s.reg y ∧ t.pc = s.pc + 2 ∧ OnlyChanges (· ∈ [.pc, .reg x]) s t)

/-- Or, And, Xor bit by bit (42_alu.md R163 to R165); that VF is not reset is decision D15: log 18. -/
def Obligations.BitwiseOperationsActPerBit : Prop :=
  ∀ (x y : RegIdx) (s : State),
    (∃ t, exec (.or x y) s = .next t ∧ t.pc = s.pc + 2 ∧ OnlyChanges (· ∈ [.pc, .reg x]) s t ∧
      ∀ k, (t.reg x).getLsbD k = ((s.reg x).getLsbD k || (s.reg y).getLsbD k)) ∧
    (∃ t, exec (.and x y) s = .next t ∧ t.pc = s.pc + 2 ∧ OnlyChanges (· ∈ [.pc, .reg x]) s t ∧
      ∀ k, (t.reg x).getLsbD k = ((s.reg x).getLsbD k && (s.reg y).getLsbD k)) ∧
    (∃ t, exec (.xor x y) s = .next t ∧ t.pc = s.pc + 2 ∧ OnlyChanges (· ∈ [.pc, .reg x]) s t ∧
      ∀ k, (t.reg x).getLsbD k = ((s.reg x).getLsbD k ^^ (s.reg y).getLsbD k))

/-- AddCarry, SubBorrow, RevSubBorrow (42_alu.md R166, R167, R169, R172) on the integers, for every x and y. That with
x = 0xF or y = 0xF the operands are the old values and VF ends as the flag is decision D9: log 11. -/
def Obligations.AddAndSubtractSetResultAndFlag : Prop :=
  ∀ (x y : RegIdx) (s : State),
    (∃ t, exec (.addCarry x y) s = .next t ∧
      (x ≠ 0xF → (t.reg x).toNat = ((s.reg x).toNat + (s.reg y).toNat) % 256) ∧
      t.reg 0xF = (if (s.reg x).toNat + (s.reg y).toNat > 255 then 1 else 0) ∧
      t.pc = s.pc + 2 ∧ OnlyChanges (· ∈ [.pc, .reg x, .reg 0xF]) s t) ∧
    (∃ t, exec (.subBorrow x y) s = .next t ∧
      (x ≠ 0xF → (t.reg x).toNat = ((s.reg x).toNat + 256 - (s.reg y).toNat) % 256) ∧
      t.reg 0xF = (if (s.reg x).toNat ≥ (s.reg y).toNat then 1 else 0) ∧
      t.pc = s.pc + 2 ∧ OnlyChanges (· ∈ [.pc, .reg x, .reg 0xF]) s t) ∧
    (∃ t, exec (.revSubBorrow x y) s = .next t ∧
      (x ≠ 0xF → (t.reg x).toNat = ((s.reg y).toNat + 256 - (s.reg x).toNat) % 256) ∧
      t.reg 0xF = (if (s.reg y).toNat ≥ (s.reg x).toNat then 1 else 0) ∧
      t.pc = s.pc + 2 ∧ OnlyChanges (· ∈ [.pc, .reg x, .reg 0xF]) s t)

/-- ShiftRight and ShiftLeft (42_alu.md R168, R170, R172): by one, VF the bit shifted out. That with x = 0xF the flag stands
is decision D9: log 11. -/
def Obligations.ShiftsSetTheBitShiftedOut : Prop :=
  ∀ (x : RegIdx) (s : State),
    (∃ t, exec (.shiftRight x) s = .next t ∧
      (x ≠ 0xF → (t.reg x).toNat = (s.reg x).toNat / 2) ∧ (t.reg 0xF).toNat = (s.reg x).toNat % 2 ∧
      t.pc = s.pc + 2 ∧ OnlyChanges (· ∈ [.pc, .reg x, .reg 0xF]) s t) ∧
    (∃ t, exec (.shiftLeft x) s = .next t ∧
      (x ≠ 0xF → (t.reg x).toNat = ((s.reg x).toNat * 2) % 256) ∧ (t.reg 0xF).toNat = (s.reg x).toNat / 128 ∧
      t.pc = s.pc + 2 ∧ OnlyChanges (· ∈ [.pc, .reg x, .reg 0xF]) s t)

/-! ## Index register and memory -/

/-- R190, R192: SetIndex and SetIndexToDigitSprite. -/
def Obligations.IndexIsSetToAddressOrGlyph : Prop :=
  Encodes 0xF000 0xA000 (fun op => .setIndex (fieldNNN op)) ∧
  Encodes 0xF0FF 0xF029 (fun op => .setIndexToDigitSprite (fieldX op)) ∧
  (∀ (nnn : Addr12) (s : State), ∃ t, exec (.setIndex nnn) s = .next t ∧ t.index.toNat = nnn.toNat ∧
    t.pc = s.pc + 2 ∧ OnlyChanges (· ∈ [.pc, .index]) s t) ∧
  ∀ (x : RegIdx) (s : State), ∃ t, exec (.setIndexToDigitSprite x) s = .next t ∧
    t.index.toNat = (s.reg x).toNat * 5 ∧ t.pc = s.pc + 2 ∧ OnlyChanges (· ∈ [.pc, .index]) s t

/-- AddIndex (43_index_memory.md R191): modulo 65536; that no flag is set is decision D15: log 18. -/
def Obligations.AddIndexWrapsWithoutFlag : Prop :=
  ∀ (x : RegIdx) (s : State), ∃ t, exec (.addIndex x) s = .next t ∧
    t.index.toNat = (s.index.toNat + (s.reg x).toNat) % 65536 ∧ t.pc = s.pc + 2 ∧ OnlyChanges (· ∈ [.pc, .index]) s t

/-- StoreBCD (R193): the three digits at the effective addresses of I, I + 1, I + 2 (the wrap is decision D5: log 4), and
no other byte. Canonical memory is a premise (StepKeepsInvariant). -/
def Obligations.StoreBcdWritesThreeDigits : Prop :=
  ∀ (x : RegIdx) (s : State), s.mem.wf → ∃ t, exec (.storeBCD x) s = .next t ∧
    (t.byteAt s.index).toNat = (s.reg x).toNat / 100 ∧
    (t.byteAt (s.index + 1)).toNat = (s.reg x).toNat / 10 % 10 ∧
    (t.byteAt (s.index + 2)).toNat = (s.reg x).toNat % 10 ∧
    t.pc = s.pc + 2 ∧
    OnlyChanges (fun l => l = .pc ∨ ∃ a, l = .mem a ∧ ∃ k < 3, ea a = ea (s.indexPlus k)) s t

/-- StoreRegisters (R194): V0 to Vx at the effective addresses of I to I + x (the wrap is decision D5: log 4; that I keeps
its value is D15: log 18), and no other byte. -/
def Obligations.StoreRegistersWritesV0ToVx : Prop :=
  ∀ (x : RegIdx) (s : State), s.mem.wf → ∃ t, exec (.storeRegisters x) s = .next t ∧
    (∀ r : RegIdx, r.toNat ≤ x.toNat → t.byteAt (s.indexPlus r.toNat) = s.reg r) ∧ t.pc = s.pc + 2 ∧
    OnlyChanges (fun l => l = .pc ∨ ∃ a, l = .mem a ∧ ∃ k ≤ x.toNat, ea a = ea (s.indexPlus k)) s t

/-- LoadRegisters (R195): V0 to Vx from the effective addresses of I to I + x (decisions D5: log 4, D15: log 18), every
register above Vx and every byte of memory unchanged. -/
def Obligations.LoadRegistersReadsV0ToVx : Prop :=
  ∀ (x : RegIdx) (s : State), ∃ t, exec (.loadRegisters x) s = .next t ∧
    (∀ r : RegIdx, r.toNat ≤ x.toNat → t.reg r = s.byteAt (s.indexPlus r.toNat)) ∧ t.pc = s.pc + 2 ∧
    OnlyChanges (fun l => l = .pc ∨ ∃ r, l = .reg r ∧ r.toNat ≤ x.toNat) s t

/-- The round-trip law (R196): what StoreRegisters stored, LoadRegisters with the same x and I brings back, whatever the
registers held in between, for every x. -/
def Obligations.StoreThenLoadRestoresRegisters : Prop :=
  ∀ (x : RegIdx) (s t u w : State), s.mem.wf → exec (.storeRegisters x) s = .next t → u.mem = t.mem → u.index = t.index →
    exec (.loadRegisters x) u = .next w → ∀ r : RegIdx, r.toNat ≤ x.toNat → w.reg r = s.reg r

/-! ## Display -/

/-- R210: Clear turns every cell off and touches nothing else. -/
def Obligations.ClearTurnsEveryCellOff : Prop :=
  Encodes 0xF0FF 0x00E0 (fun _ => .clear) ∧
  ∀ s : State, ∃ t, exec .clear s = .next t ∧ (∀ r c, t.pixel r c = 0x00) ∧ t.pc = s.pc + 2 ∧
    OnlyChanges (fun l => l = .pc ∨ ∃ r c, l = .pixel r c) s t

/-- The draw loop of 44_display.md R211 equals its closed form: exactly the cells under a set bit of the sprite, wrapped
per pixel (R212), flip; VF is 1 if one of them was on and else 0, whatever it was; n = 0 draws nothing (decision D14:
log 17). The origin from the old VF is D9: log 11, the sprite address's wrap D5: log 4, I unchanged D15: log 18. -/
def Obligations.DrawSpriteFlipsExactlyTheCellsUnderIt : Prop :=
  ∀ (x y : RegIdx) (n : Nibble) (s : State), ∃ t, exec (.drawSprite x y n) s = .next t ∧
    (∀ r c, s.underSprite x y n r c → t.pixel r c = s.pixel r c ^^^ 0xFF) ∧
    ((∃ r c, s.underSprite x y n r c ∧ s.pixel r c = 0xFF) → t.reg 0xF = 1) ∧
    ((¬ ∃ r c, s.underSprite x y n r c ∧ s.pixel r c = 0xFF) → t.reg 0xF = 0) ∧
    t.pc = s.pc + 2 ∧
    OnlyChanges (fun l => l = .pc ∨ l = .reg 0xF ∨ ∃ r c, l = .pixel r c ∧ s.underSprite x y n r c) s t

/-- R213: VF after a draw is 1 exactly when some cell went from on to off in this draw, and 0 otherwise, whatever it was
before; and the source's test, a row of eight set bits drawn twice from a clear frame buffer. -/
def Obligations.CollisionFlagIsFreshAndSticky : Prop :=
  (∀ (x y : RegIdx) (n : Nibble) (s t : State), s.Inv → exec (.drawSprite x y n) s = .next t →
    (t.reg 0xF = 0x00 ∨ t.reg 0xF = 0x01) ∧
    (t.reg 0xF = 0x01 ↔ ∃ r c, s.pixel r c = 0xFF ∧ t.pixel r c = 0x00)) ∧
  ∀ (x y : RegIdx) (s t u : State), x ≠ 0xF → y ≠ 0xF → (∀ r c, s.pixel r c = 0x00) → s.byteAt s.index = 0xFF →
    exec (.drawSprite x y 1) s = .next t → exec (.drawSprite x y 1) t = .next u →
    t.reg 0xF = 0 ∧ (∀ r c, u.pixel r c = 0x00) ∧ u.reg 0xF = 1

/-- Drawing any sprite twice at one origin restores the frame buffer, in every state (44_display.md R211). That I is
unchanged between the two draws is decision D15: log 18. -/
def Obligations.DrawingTwiceRestoresTheScreen : Prop :=
  ∀ (x y : RegIdx) (n : Nibble) (s t u : State), x ≠ 0xF → y ≠ 0xF →
    exec (.drawSprite x y n) s = .next t → exec (.drawSprite x y n) t = .next u →
    u.fb = s.fb ∧ (u.reg 0xF = 1 ↔ ∃ r c, s.underSprite x y n r c ∧ s.pixel r c = 0x00)

/-- Origins that agree modulo 64 and modulo 32 draw the same cells and the same flag (R212), and the source's test: an
8 by 1 sprite at (63, 31) puts its column 0 on column 63 and its column 1 on column 0. -/
def Obligations.OriginWrapsPerPixel : Prop :=
  (∀ (x y : RegIdx) (n : Nibble) (s s' t t' : State), s'.fb = s.fb → s'.mem = s.mem → s'.index = s.index →
    (s'.reg x).toNat % 64 = (s.reg x).toNat % 64 → (s'.reg y).toNat % 32 = (s.reg y).toNat % 32 →
    exec (.drawSprite x y n) s = .next t → exec (.drawSprite x y n) s' = .next t' →
    t'.fb = t.fb ∧ t'.reg 0xF = t.reg 0xF) ∧
  ∀ (x y : RegIdx) (s t : State), (s.reg x).toNat = 63 → (s.reg y).toNat = 31 →
    exec (.drawSprite x y 1) s = .next t →
    ((s.byteAt s.index).getLsbD 7 = true → t.pixel 31 63 = s.pixel 31 63 ^^^ 0xFF) ∧
    ((s.byteAt s.index).getLsbD 6 = true → t.pixel 31 0 = s.pixel 31 0 ^^^ 0xFF)

/-! ## Keypad, timers, random -/

/-- SkipKeyPressed and SkipKeyNotPressed (45_keypad_timers_random.md R230, R231): the key consulted is Vx modulo 16
(decision D8: log 12). -/
def Obligations.KeySkipsConsultTheKeyFlag : Prop :=
  ∀ (x : RegIdx) (k : Nibble) (s : State), k.toNat = (s.reg x).toNat % 16 →
    exec (.skipKeyPressed x) s = .next { s with pc := if s.keyDown k = true then s.pc + 4 else s.pc + 2 } ∧
    exec (.skipKeyNotPressed x) s = .next { s with pc := if s.keyDown k = true then s.pc + 2 else s.pc + 4 }

/-- R232: WaitForKey takes a key from LASTKEY without consuming it, and without a key changes nothing at all. -/
def Obligations.WaitForKeyTakesOrHolds : Prop :=
  Encodes 0xF0FF 0xF00A (fun op => .waitForKey (fieldX op)) ∧
  ∀ (x : RegIdx) (s : State),
    (s.lastKey.toNat ≤ 15 → ∃ t, exec (.waitForKey x) s = .next t ∧ t.reg x = s.lastKey ∧ t.lastKey = s.lastKey ∧
      t.pc = s.pc + 2 ∧ OnlyChanges (· ∈ [.pc, .reg x]) s t) ∧
    (s.lastKey.toNat ≥ 16 → exec (.waitForKey x) s = .next s)

/-- The wait is a poll (R232, R297): any number of steps without a key change nothing, and the step after the host writes a
key completes. That LASTKEY 16 and above is no key is decision D22: log 19. -/
def Obligations.WaitingPollsUntilTheHostWritesAKey : Prop :=
  ∀ (x : RegIdx) (s : State), s.nextInstr = .waitForKey x → s.lastKey.toNat ≥ 16 →
    (∀ n, Sys2Proof.core.run n s = .next s) ∧
    ∀ v : Byte, v.toNat ≤ 15 → ∃ t, step (lastKeyWrite v s) = .next t ∧ t.reg x = v ∧ t.pc = s.pc + 2 ∧
      OnlyChanges (· ∈ [.pc, .reg x, .lastKey]) s t

/-- R233, R234, R235: ReadDelayTimer, SetDelayTimer, SetSoundTimer. -/
def Obligations.TimerInstructionsMoveTheTimer : Prop :=
  Encodes 0xF0FF 0xF007 (fun op => .readDelayTimer (fieldX op)) ∧
  Encodes 0xF0FF 0xF015 (fun op => .setDelayTimer (fieldX op)) ∧
  Encodes 0xF0FF 0xF018 (fun op => .setSoundTimer (fieldX op)) ∧
  ∀ (x : RegIdx) (s : State),
    (∃ t, exec (.readDelayTimer x) s = .next t ∧ t.reg x = s.dt ∧ t.pc = s.pc + 2 ∧
      OnlyChanges (· ∈ [.pc, .reg x]) s t) ∧
    (∃ t, exec (.setDelayTimer x) s = .next t ∧ t.dt = s.reg x ∧ t.pc = s.pc + 2 ∧ OnlyChanges (· ∈ [.pc, .dt]) s t) ∧
    (∃ t, exec (.setSoundTimer x) s = .next t ∧ t.st = s.reg x ∧ t.pc = s.pc + 2 ∧ OnlyChanges (· ∈ [.pc, .st]) s t)

/-- Random (R236): Vx is the mask applied to a free byte, the next draw of the source (decision D16: log 1), so no bit is set
outside the mask; the draw is used up. It holds for every count of draws and rests on no value of a draw. -/
def Obligations.RandomMasksAFreeByte : Prop :=
  ∀ (x : RegIdx) (kk : Byte) (s : State), ∃ t, exec (.random x kk) s = .next t ∧
    t.reg x = Config.rnd s.draws &&& kk ∧ (∀ k, kk.getLsbD k = false → (t.reg x).getLsbD k = false) ∧
    t.draws = s.draws + 1 ∧ t.pc = s.pc + 2 ∧ OnlyChanges (· ∈ [.pc, .reg x, .draws]) s t

/-! ## Transactions -/

/-- n TICKs take each timer down by n, each on its own, and stop at zero (60_exceptions.md R290, decision D12: log 15);
nothing else changes. -/
def Obligations.TicksCountDownToZero : Prop :=
  ∀ (n : Nat) (s : State), ∃ t, runTransactions (List.replicate n .tick) s = .next t ∧
    t.dt.toNat = s.dt.toNat - n ∧ t.st.toNat = s.st.toNat - n ∧ OnlyChanges (· ∈ [.dt, .st]) s t

/-- LOAD (50_interface.md R252): the image stands at 0x200 and no other byte and nothing else changes; an image longer than
3584 bytes is rejected whole (decision D13: log 16). -/
def Obligations.LoadCopiesTheImageOrRejectsIt : Prop :=
  ∀ (image : List Byte) (s : State), s.mem.wf →
    (image.length ≤ 3584 → ∃ t, transact (.load image) s = .next (t, .ok) ∧
      (∀ (k : Nat) (h : k < image.length), t.byteAt (BitVec.ofNat 16 (0x200 + k)) = image[k]) ∧
      OnlyChanges (fun l => ∃ a, l = .mem a ∧ 0x200 ≤ ea a ∧ ea a < 0x200 + image.length) s t) ∧
    (image.length > 3584 → transact (.load image) s = .next (s, .loadError))

/-- R255, R256: the host's key writes set one flag or the slot, independently, and the block itself never writes either. -/
def Obligations.KeyWritesSetOneFlagOrTheSlot : Prop :=
  (∀ (k : Nibble) (b : Bool) (s : State), ∃ t, transact (.keyWrite k b) s = .next (t, .done) ∧ t.keyDown k = b ∧
    OnlyChanges (· ∈ [.key k]) s t) ∧
  (∀ (v : Byte) (s : State), ∃ t, transact (.lastKeyWrite v) s = .next (t, .done) ∧ t.lastKey = v ∧
    OnlyChanges (· ∈ [.lastKey]) s t) ∧
  ∀ s t : State, step s = .next t → t.key = s.key ∧ t.lastKey = s.lastKey

/-- RESET (70_reset_and_hazards.md R310, 10_state.md R37) from any state: V, STACK, KEY, pc, the font and zeroed memory are
the source's; I, SP, FB, LASTKEY, DT and ST are decision D11: log 14; the font bytes D10: log 13. The random source goes on
(log 2). State.reset holds the same values. -/
def Obligations.ResetPutsEveryItemAtItsResetValue : Prop :=
  ∀ s : State, ∃ t, transact .reset s = .next (t, .done) ∧ t.draws = s.draws ∧ ∀ u ∈ [t, State.reset],
    (∀ r, u.reg r = 0x00) ∧ (∀ k, u.stackAt k = 0x0000) ∧ (∀ k, u.keyDown k = false) ∧ u.pc = 0x0200 ∧
    (∀ a, u.byteAt a = if ea a < 80 then Config.font.getD (ea a) 0x00 else 0x00) ∧
    u.index = 0x0000 ∧ u.sp = 0 ∧ (∀ r c, u.pixel r c = 0x00) ∧ u.lastKey = 0x10 ∧ u.dt = 0x00 ∧ u.st = 0x00

/-- R312: after RESET pc is 0x0200, and after a LOAD the first step executes the first two bytes of the image. -/
def Obligations.FirstInstructionIsTheImagesFirstWord : Prop :=
  ∀ (b₀ b₁ : Byte) (rest : List Byte) (s : State), rest.length + 2 ≤ 3584 →
    ∃ t, runTransactions [.reset, .load (b₀ :: b₁ :: rest)] s = .next t ∧ t.pc = 0x0200 ∧
      t.byteAt 0x200 = b₀ ∧ t.byteAt 0x201 = b₁ ∧ step t = exec (decodeWord (b₀ ++ b₁)) t

/-- The read-outs change nothing; cell (r, c) is element r * 64 + c of 2048 (50_interface.md R257, decision D17: log 24);
sound_on is ST > 0 (60_exceptions.md R291, D25: log 24). -/
def Obligations.ReadOutsShowTheStateAndChangeNothing : Prop :=
  ∀ s : State,
    (∃ cells, transact .readFrameBuffer s = .next (s, .cells cells) ∧ cells.length = 2048 ∧
      ∀ (r : Fin 32) (c : Fin 64), cells[r.val * 64 + c.val]? = some (s.pixel r c)) ∧
    transact .readDelay s = .next (s, .timer s.dt) ∧ transact .readSound s = .next (s, .timer s.st) ∧
    ∃ b, transact .readSoundOn s = .next (s, .sound b) ∧ (b = true ↔ s.st.toNat > 0)
end

