-- ==== Sys2Proof/Laws/Decode.lean ====
section
/-! SUPPORT. What the fields, the forms and the masks of an opcode are as numbers (spec/30_encoding.md R91, R92, R96), and
that a word is its fields. -/

namespace Sys2Proof

@[simp] theorem nibble_and_ones (a : Nibble) : a &&& 15#4 = a := by revert a; decide

theorem toNat_append_eq {m k : Nat} (a : BitVec m) (b : BitVec k) : (a ++ b).toNat = a.toNat * 2 ^ k + b.toNat := by
  rw [BitVec.toNat_append, ← Nat.shiftLeft_add_eq_or_of_lt b.isLt, Nat.shiftLeft_eq]

theorem toNat_formR (c x y n : Nibble) : (formR c x y n).toNat = c.toNat * 4096 + x.toNat * 256 + y.toNat * 16 + n.toNat := by
  simp only [formR, toNat_append_eq]; omega

theorem toNat_formI (c x : Nibble) (kk : Byte) : (formI c x kk).toNat = c.toNat * 4096 + x.toNat * 256 + kk.toNat := by
  simp only [formI, toNat_append_eq]; omega

theorem toNat_formA (c : Nibble) (nnn : Addr12) : (formA c nnn).toNat = c.toNat * 4096 + nnn.toNat := by
  simp only [formA, toNat_append_eq]; omega

@[simp] theorem toNat_fieldClass (op : Word) : (fieldClass op).toNat = op.toNat / 4096 := by
  have := op.isLt
  simp only [fieldClass, BitVec.extractLsb'_toNat, Nat.shiftRight_eq_div_pow]; omega
@[simp] theorem toNat_fieldX (op : Word) : (fieldX op).toNat = op.toNat / 256 % 16 := by
  simp only [fieldX, BitVec.extractLsb'_toNat, Nat.shiftRight_eq_div_pow]
@[simp] theorem toNat_fieldY (op : Word) : (fieldY op).toNat = op.toNat / 16 % 16 := by
  simp only [fieldY, BitVec.extractLsb'_toNat, Nat.shiftRight_eq_div_pow]
@[simp] theorem toNat_fieldN (op : Word) : (fieldN op).toNat = op.toNat % 16 := by
  simp [fieldN, BitVec.extractLsb'_toNat]
@[simp] theorem toNat_fieldKK (op : Word) : (fieldKK op).toNat = op.toNat % 256 := by
  simp [fieldKK, BitVec.extractLsb'_toNat]
@[simp] theorem toNat_fieldNNN (op : Word) : (fieldNNN op).toNat = op.toNat % 4096 := by
  simp [fieldNNN, BitVec.extractLsb'_toNat]

theorem word_eq_fields (op : Word) : op = formR (fieldClass op) (fieldX op) (fieldY op) (fieldN op) := by
  apply BitVec.eq_of_toNat_eq
  have h := op.isLt
  simp only [toNat_formR, toNat_fieldClass, toNat_fieldX, toNat_fieldY, toNat_fieldN]
  omega

theorem formR_and (c x y n : Nibble) (c' x' y' n' : Nibble) :
    formR c x y n &&& formR c' x' y' n' = formR (c &&& c') (x &&& x') (y &&& y') (n &&& n') := by
  have app : ∀ {m k : Nat} (a a' : BitVec m) (b b' : BitVec k), (a ++ b) &&& (a' ++ b') = (a &&& a') ++ (b &&& b') := by
    intro m k a a' b b'
    ext i hi
    simp only [BitVec.getElem_and, BitVec.getElem_append]
    split_ifs <;> rfl
  exact (app c c' _ _).trans (by rw [app, app]; rfl)

theorem formR_inj {c x y n c' x' y' n' : Nibble} :
    formR c x y n = formR c' x' y' n' ↔ c = c' ∧ x = x' ∧ y = y' ∧ n = n' := by
  simp only [← BitVec.toNat_inj, toNat_formR]
  have := c.isLt; have := x.isLt; have := y.isLt; have := n.isLt
  have := c'.isLt; have := x'.isLt; have := y'.isLt; have := n'.isLt
  omega

theorem word_eq_formR_iff (op : Word) (c x y n : Nibble) :
   op = formR c x y n ↔ fieldClass op = c ∧ fieldX op = x ∧ fieldY op = y ∧ fieldN op = n := by
  conv_lhs => rw [word_eq_fields op]
  exact formR_inj

theorem and_mask_eq (op mask m : Word) : op &&& mask = m ↔
    fieldClass op &&& fieldClass mask = fieldClass m ∧ fieldX op &&& fieldX mask = fieldX m ∧
    fieldY op &&& fieldY mask = fieldY m ∧ fieldN op &&& fieldN mask = fieldN m := by
  conv_lhs => rw [word_eq_fields op, word_eq_fields mask, word_eq_fields m, formR_and]
  exact formR_inj
theorem and_F000_eq (op m : Word) : op &&& 0xF000#16 = m ↔ fieldClass op = fieldClass m ∧ fieldX m = 0 ∧ fieldY m = 0 ∧ fieldN m = 0 := by
  rw [and_mask_eq, show fieldClass 0xF000#16 = 0xF from by decide, show fieldX 0xF000#16 = 0x0 from by decide, show fieldY 0xF000#16 = 0x0 from by decide, show fieldN 0xF000#16 = 0x0 from by decide]
  simp [eq_comm]

theorem and_F0FF_eq (op m : Word) : op &&& 0xF0FF#16 = m ↔ fieldClass op = fieldClass m ∧ fieldX m = 0 ∧ fieldY op = fieldY m ∧ fieldN op = fieldN m := by
  rw [and_mask_eq, show fieldClass 0xF0FF#16 = 0xF from by decide, show fieldX 0xF0FF#16 = 0x0 from by decide, show fieldY 0xF0FF#16 = 0xF from by decide, show fieldN 0xF0FF#16 = 0xF from by decide]
  simp [eq_comm]

theorem and_F00F_eq (op m : Word) : op &&& 0xF00F#16 = m ↔ fieldClass op = fieldClass m ∧ fieldX m = 0 ∧ fieldY m = 0 ∧ fieldN op = fieldN m := by
  rw [and_mask_eq, show fieldClass 0xF00F#16 = 0xF from by decide, show fieldX 0xF00F#16 = 0x0 from by decide, show fieldY 0xF00F#16 = 0x0 from by decide, show fieldN 0xF00F#16 = 0xF from by decide]
  simp [eq_comm]

@[simp] theorem fieldClass_formR (c x y n : Nibble) : fieldClass (formR c x y n) = c := by
  apply BitVec.eq_of_toNat_eq
  simp only [toNat_fieldClass, toNat_formR]; omega

@[simp] theorem fieldX_formR (c x y n : Nibble) : fieldX (formR c x y n) = x := by
  apply BitVec.eq_of_toNat_eq
  simp only [toNat_fieldX, toNat_formR]; omega

@[simp] theorem fieldY_formR (c x y n : Nibble) : fieldY (formR c x y n) = y := by
  apply BitVec.eq_of_toNat_eq
  simp only [toNat_fieldY, toNat_formR]; omega

@[simp] theorem fieldN_formR (c x y n : Nibble) : fieldN (formR c x y n) = n := by
  apply BitVec.eq_of_toNat_eq
  simp only [toNat_fieldN, toNat_formR]; omega

@[simp] theorem fieldClass_formI (c x : Nibble) (kk : Byte) : fieldClass (formI c x kk) = c := by
  apply BitVec.eq_of_toNat_eq
  simp only [toNat_fieldClass, toNat_formI]; omega

@[simp] theorem fieldX_formI (c x : Nibble) (kk : Byte) : fieldX (formI c x kk) = x := by
  apply BitVec.eq_of_toNat_eq
  simp only [toNat_fieldX, toNat_formI]; omega

@[simp] theorem fieldKK_formI (c x : Nibble) (kk : Byte) : fieldKK (formI c x kk) = kk := by
  apply BitVec.eq_of_toNat_eq
  simp only [toNat_fieldKK, toNat_formI]; omega

@[simp] theorem fieldClass_formA (c : Nibble) (nnn : Addr12) : fieldClass (formA c nnn) = c := by
  apply BitVec.eq_of_toNat_eq
  simp only [toNat_fieldClass, toNat_formA]; omega

@[simp] theorem fieldNNN_formA (c : Nibble) (nnn : Addr12) : fieldNNN (formA c nnn) = nnn := by
  apply BitVec.eq_of_toNat_eq
  simp only [toNat_fieldNNN, toNat_formA]; omega

@[simp] theorem fieldY_formI (c x : Nibble) (kk : Byte) : fieldY (formI c x kk) = kk.extractLsb' 4 4 := by
  apply BitVec.eq_of_toNat_eq
  simp only [toNat_fieldY, toNat_formI, BitVec.extractLsb'_toNat, Nat.shiftRight_eq_div_pow]; omega

@[simp] theorem fieldN_formI (c x : Nibble) (kk : Byte) : fieldN (formI c x kk) = kk.extractLsb' 0 4 := by
  apply BitVec.eq_of_toNat_eq
  simp only [toNat_fieldN, toNat_formI, BitVec.extractLsb'_toNat, Nat.shiftRight_eq_div_pow]; omega

@[simp] theorem fieldX_formA (c : Nibble) (nnn : Addr12) : fieldX (formA c nnn) = nnn.extractLsb' 8 4 := by
  apply BitVec.eq_of_toNat_eq
  simp only [toNat_fieldX, toNat_formA, BitVec.extractLsb'_toNat, Nat.shiftRight_eq_div_pow]; omega

@[simp] theorem fieldY_formA (c : Nibble) (nnn : Addr12) : fieldY (formA c nnn) = nnn.extractLsb' 4 4 := by
  apply BitVec.eq_of_toNat_eq
  simp only [toNat_fieldY, toNat_formA, BitVec.extractLsb'_toNat, Nat.shiftRight_eq_div_pow]; omega

@[simp] theorem fieldN_formA (c : Nibble) (nnn : Addr12) : fieldN (formA c nnn) = nnn.extractLsb' 0 4 := by
  apply BitVec.eq_of_toNat_eq
  simp only [toNat_fieldN, toNat_formA, BitVec.extractLsb'_toNat, Nat.shiftRight_eq_div_pow]; omega

@[simp] theorem fieldKK_formR (c x y n : Nibble) : fieldKK (formR c x y n) = y ++ n := by
  apply BitVec.eq_of_toNat_eq
  simp only [toNat_fieldKK, toNat_formR, toNat_append_eq]; omega

/-- The two bytes of a word, put together in fetch order, are the word (20_memory.md R62). -/
theorem wordOfBytes_bytes (w : Word) : wordOfBytes (w.extractLsb' 8 8) (w.extractLsb' 0 8) = w := by
  apply BitVec.eq_of_toNat_eq
  have := w.isLt
  simp only [wordOfBytes, toNat_append_eq, BitVec.extractLsb'_toNat, Nat.shiftRight_eq_div_pow]
  omega

/-- The word of two bytes, and their place in it. -/
theorem eq_wordOfBytes_iff (w : Word) (hi lo : Byte) :
    w = wordOfBytes hi lo ↔ w.extractLsb' 8 8 = hi ∧ w.extractLsb' 0 8 = lo := by
  constructor
  · rintro rfl
    have := hi.isLt; have := lo.isLt
    constructor <;> apply BitVec.eq_of_toNat_eq <;>
      simp only [wordOfBytes, toNat_append_eq, BitVec.extractLsb'_toNat, Nat.shiftRight_eq_div_pow] <;> omega
  · rintro ⟨rfl, rfl⟩; exact (wordOfBytes_bytes w).symm

/-- Decoding the bytes of a word is decoding the word, whatever follows. -/
theorem decodeBytes_bytesOfWord (w : Word) (rest : List Byte) :
    decodeBytes (bytesOfWord w ++ rest) = .ok (decodeWord w, rest) := by
  simp [bytesOfWord, decodeBytes, wordOfBytes_bytes]

/-- The sixteen values of a nibble, for case analysis on a field. -/
theorem nibble_cases (c : Nibble) : c = 0 ∨ c = 1 ∨ c = 2 ∨ c = 3 ∨ c = 4 ∨ c = 5 ∨ c = 6 ∨ c = 7 ∨ c = 8 ∨ c = 9 ∨
    c = 10 ∨ c = 11 ∨ c = 12 ∨ c = 13 ∨ c = 14 ∨ c = 15 := by
  revert c; decide

/-- The well-formedness check's table (R97) in the terms of the fields. -/
theorem unrecognisedWord_iff (op : Word) : unrecognisedWord op = true ↔
    (fieldClass op = 0x0 ∧ fieldKK op ∉ [0xE0, 0xEE]) ∨
    (fieldClass op = 0x8 ∧ fieldN op ∈ [0x8, 0x9, 0xA, 0xB, 0xC, 0xD, 0xF]) ∨
    (fieldClass op = 0xE ∧ fieldKK op ∉ [0x9E, 0xA1]) ∨
    (fieldClass op = 0xF ∧ fieldKK op ∉ [0x07, 0x0A, 0x15, 0x18, 0x1E, 0x29, 0x33, 0x55, 0x65]) := by
  simp only [unrecognisedWord, ← BitVec.toNat_inj, toNat_fieldClass, toNat_fieldKK, toNat_fieldN, List.mem_cons,
    List.not_mem_nil, or_false]
  have := op.isLt
  simp
  split_ifs <;> omega

end Sys2Proof
end

