-- ==== Sys2Proof/Laws/Memory.lean ====
section
/-! SUPPORT. What memory operations can do, said once: read after write, the bytes a store leaves alone, the canonical
form kept, and that canonical memories that read alike are equal. -/

namespace Sys2Proof.Machine

theorem ea_lt (a : Word) : ea a < Config.memSize := Nat.mod_lt _ (by decide)

/-- The two reductions never interact (20_memory.md R61). -/
theorem ea_add (a : Word) (k : Nat) : ea (a + BitVec.ofNat 16 k) = (a.toNat + k) % 4096 := by
  simp only [ea, Config.memSize, BitVec.toNat_add, BitVec.toNat_ofNat]
  omega

theorem ea_indexPlus (s : State) (k : Nat) : ea (s.indexPlus k) = (s.index.toNat + k) % 4096 := ea_add _ _

theorem add_one_add_ofNat (a : Word) (k : Nat) : a + 1 + BitVec.ofNat 16 k = a + BitVec.ofNat 16 (k + 1) := by
  apply BitVec.eq_of_toNat_eq
  have h1 : (1 : Word).toNat = 1 := rfl
  simp only [BitVec.toNat_add, BitVec.toNat_ofNat]
  omega

theorem Memory.read_write_of_ne {a b : Nat} (h : b ≠ a) (m : Memory) (v : Byte) :
    (m.write a v).read b = m.read b := by
  induction m with
  | nil => simp only [write]; split <;> simp [read, h]
  | cons c m ih =>
    obtain ⟨d, w⟩ := c
    simp only [write]
    split
    · split <;> simp [read, h]
    · split
      · subst d; split <;> simp [read, h]
      · simp [read, ih]

theorem Memory.read_of_lt {a : Nat} {m : Memory} (h : ∀ c ∈ m, a < c.1) : m.read a = Memory.default a := by
  induction m with
  | nil => rfl
  | cons c m ih =>
    have hc : a ≠ c.1 := Nat.ne_of_lt (h c (by simp))
    simp only [read, hc, if_false]
    exact ih fun d hd => h d (by simp [hd])

theorem Memory.read_write_self {m : Memory} (hs : m.Pairwise fun c d => c.1 < d.1) (a : Nat) (v : Byte) :
    (m.write a v).read a = v := by
  induction m with
  | nil => simp only [write]; split <;> simp_all [read]
  | cons c m ih =>
    obtain ⟨d, w⟩ := c
    rw [List.pairwise_cons] at hs
    simp only [write]
    split
    · rename_i had
      split
      · rename_i hv
        simp only [read, Nat.ne_of_lt had, if_false]
        rw [read_of_lt fun c hc => Nat.lt_trans had (hs.1 c hc), hv]
      · simp [read]
    · split
      · subst d
        split
        · rename_i hv
          rw [read_of_lt fun c hc => hs.1 c hc, hv]
        · simp [read]
      · rename_i hne
        simp [read, hne, ih hs.2]

/-- Read after write. -/
theorem Memory.read_write {m : Memory} (h : m.wf) (a b : Nat) (v : Byte) :
    (m.write a v).read b = if b = a then v else m.read b := by
  split
  · subst b; exact read_write_self h.1 a v
  · rename_i hne; exact read_write_of_ne hne m v

theorem Memory.mem_write {m : Memory} {a : Nat} {v : Byte} {c : Host.Cell} (hc : c ∈ m.write a v) :
    c ∈ m ∨ (c = (a, v) ∧ v ≠ Memory.default a) := by
  induction m with
  | nil => simp only [write] at hc; split at hc <;> simp_all
  | cons d m ih =>
    obtain ⟨d, w⟩ := d
    simp only [write] at hc
    split at hc
    · split at hc
      · exact .inl hc
      · rename_i hv
        rcases List.mem_cons.1 hc with rfl | hc
        · exact .inr ⟨rfl, hv⟩
        · exact .inl hc
    · split at hc
      · split at hc
        · exact .inl (List.mem_cons_of_mem _ hc)
        · rename_i hv
          rcases List.mem_cons.1 hc with rfl | hc
          · exact .inr ⟨rfl, hv⟩
          · exact .inl (List.mem_cons_of_mem _ hc)
      · rcases List.mem_cons.1 hc with rfl | hc
        · exact .inl (by simp)
        · rcases ih hc with h | h
          · exact .inl (List.mem_cons_of_mem _ h)
          · exact .inr h

/-- A write keeps the canonical form. -/
theorem Memory.wf_write {m : Memory} (h : m.wf) {a : Nat} (ha : a < Config.memSize) (v : Byte) : (m.write a v).wf := by
  refine ⟨?_, fun c hc => ?_⟩
  · have hs := h.1
    clear h
    induction m with
    | nil => simp only [write]; split <;> simp
    | cons d m ih =>
      obtain ⟨d, w⟩ := d
      rw [List.pairwise_cons] at hs
      simp only [write]
      split
      · rename_i had
        split
        · exact List.pairwise_cons.2 hs
        · refine List.pairwise_cons.2 ⟨fun c hc => ?_, List.pairwise_cons.2 hs⟩
          rcases List.mem_cons.1 hc with rfl | hc
          · exact had
          · exact Nat.lt_trans had (hs.1 c hc)
      · split
        · rename_i had
          split
          · exact hs.2
          · exact List.pairwise_cons.2 ⟨fun c hc => had ▸ hs.1 c hc, hs.2⟩
        · refine List.pairwise_cons.2 ⟨fun c hc => ?_, ih hs.2⟩
          rcases mem_write hc with hc | ⟨rfl, -⟩
          · exact hs.1 c hc
          · show d < a
            omega
  · rcases mem_write hc with hc | ⟨rfl, hv⟩
    · exact h.2 c hc
    · exact ⟨ha, hv⟩

theorem Memory.wf_nil : Memory.wf [] := by simp [Memory.wf]

/-- A store keeps the canonical form. -/
theorem Memory.wf_writeBytes {m : Memory} (h : m.wf) (a : Word) (vs : List Byte) : (m.writeBytes a vs).wf := by
  induction vs generalizing m a with
  | nil => exact h
  | cons v vs ih => exact ih (wf_write h (ea_lt a) v) (a + 1)

/-- A store leaves every byte alone that it does not store to. -/
theorem Memory.read_writeBytes_of_ne {b : Nat} (m : Memory) (a : Word) (vs : List Byte)
    (h : ∀ k < vs.length, b ≠ ea (a + BitVec.ofNat 16 k)) : (m.writeBytes a vs).read b = m.read b := by
  induction vs generalizing m a with
  | nil => rfl
  | cons v vs ih =>
    simp only [writeBytes]
    rw [ih]
    · exact read_write_of_ne (by simpa using h 0 (by simp)) m v
    · intro k hk
      rw [add_one_add_ofNat]
      exact h (k + 1) (by simpa using hk)

/-- A store puts byte k at the effective address of the base plus k. -/
theorem Memory.read_writeBytes_at {m : Memory} (h : m.wf) (a : Word) (vs : List Byte) (hl : vs.length ≤ 4096)
    (k : Nat) (hk : k < vs.length) : (m.writeBytes a vs).read (ea (a + BitVec.ofNat 16 k)) = vs[k] := by
  induction vs generalizing m a k with
  | nil => simp at hk
  | cons v vs ih =>
    simp only [writeBytes]
    cases k with
    | zero =>
      rw [read_writeBytes_of_ne]
      · simpa using read_write_self h.1 (ea a) v
      · intro j hj
        simp only [List.length_cons] at hl
        rw [add_one_add_ofNat, ea_add, ea_add]
        omega
    | succ k =>
      rw [← add_one_add_ofNat]
      simpa using ih (wf_write h (ea_lt a) v) (a + 1) (by simp at hl; omega) k (by simpa using hk)

@[simp] theorem Memory.length_readBytes (m : Memory) (a : Word) (n : Nat) : (m.readBytes a n).length = n := by
  induction n generalizing a with
  | zero => rfl
  | succ n ih => simp [readBytes, ih]

/-- Byte k of a read is the byte at the effective address of the base plus k. -/
theorem Memory.getElem_readBytes (m : Memory) (a : Word) (n k : Nat) (hk : k < (m.readBytes a n).length) :
    (m.readBytes a n)[k] = m.read (ea (a + BitVec.ofNat 16 k)) := by
  induction n generalizing a k with
  | zero => simp [readBytes] at hk
  | succ n ih =>
    cases k with
    | zero => simp [readBytes]
    | succ k =>
      simp only [readBytes, List.getElem_cons_succ]
      rw [ih, add_one_add_ofNat]

/-- Canonical memories that read alike at every address are equal. -/
theorem Memory.ext_of_wf {m m' : Memory} (h : m.wf) (h' : m'.wf)
    (hr : ∀ a < Config.memSize, m.read a = m'.read a) : m = m' := by
  induction m generalizing m' with
  | nil =>
    cases m' with
    | nil => rfl
    | cons c m' =>
      have hc := h'.2 c (by simp)
      have := hr c.1 hc.1
      simp only [read, if_true] at this
      exact absurd this.symm hc.2
  | cons c m ih =>
    have hc := h.2 c (by simp)
    cases m' with
    | nil =>
      have := hr c.1 hc.1
      simp only [read, if_true] at this
      exact absurd this hc.2
    | cons d m' =>
      have hd := h'.2 d (by simp)
      obtain ⟨hs, hv⟩ := h
      obtain ⟨hs', hv'⟩ := h'
      rw [List.pairwise_cons] at hs hs'
      have hcd : c.1 = d.1 := by
        rcases Nat.lt_trichotomy c.1 d.1 with hlt | heq | hlt
        · have := hr c.1 hc.1
          rw [show read (d :: m') c.1 = Memory.default c.1 from read_of_lt fun e he => by
            rcases List.mem_cons.1 he with rfl | he
            · exact hlt
            · exact Nat.lt_trans hlt (hs'.1 e he)] at this
          simp only [read, if_true] at this
          exact absurd this hc.2
        · exact heq
        · have := hr d.1 hd.1
          rw [show read (c :: m) d.1 = Memory.default d.1 from read_of_lt fun e he => by
            rcases List.mem_cons.1 he with rfl | he
            · exact hlt
            · exact Nat.lt_trans hlt (hs.1 e he)] at this
          simp only [read, if_true] at this
          exact absurd this.symm hd.2
      have hb : c.2 = d.2 := by
        have := hr c.1 hc.1
        simpa [read, hcd] using this
      have hm : m = m' := by
        refine ih ⟨hs.2, fun e he => hv e (by simp [he])⟩ ⟨hs'.2, fun e he => hv' e (by simp [he])⟩ fun a ha => ?_
        by_cases hac : a = c.1
        · subst hac
          rw [read_of_lt hs.1, read_of_lt (hcd ▸ hs'.1)]
        · have := hr a ha
          simpa [read, hac, hcd ▸ hac] using this
      rw [hm, Prod.ext hcd hb]

end Sys2Proof.Machine
end

