-- ==== Sys2Proof/Laws/State.lean ====
section
/-! SUPPORT. One lemma per field per update, and what each accessor reads after each update. -/

namespace Sys2Proof.Machine.State

variable (s : State)

@[simp] theorem setReg_v (x : RegIdx) (b : Byte) : (s.setReg x b).v = s.v.set x.toNat b := rfl
@[simp] theorem setReg_index (x : RegIdx) (b : Byte) : (s.setReg x b).index = s.index := rfl
@[simp] theorem setReg_pc (x : RegIdx) (b : Byte) : (s.setReg x b).pc = s.pc := rfl
@[simp] theorem setReg_sp (x : RegIdx) (b : Byte) : (s.setReg x b).sp = s.sp := rfl
@[simp] theorem setReg_stack (x : RegIdx) (b : Byte) : (s.setReg x b).stack = s.stack := rfl
@[simp] theorem setReg_mem (x : RegIdx) (b : Byte) : (s.setReg x b).mem = s.mem := rfl
@[simp] theorem setReg_fb (x : RegIdx) (b : Byte) : (s.setReg x b).fb = s.fb := rfl
@[simp] theorem setReg_key (x : RegIdx) (b : Byte) : (s.setReg x b).key = s.key := rfl
@[simp] theorem setReg_lastKey (x : RegIdx) (b : Byte) : (s.setReg x b).lastKey = s.lastKey := rfl
@[simp] theorem setReg_dt (x : RegIdx) (b : Byte) : (s.setReg x b).dt = s.dt := rfl
@[simp] theorem setReg_st (x : RegIdx) (b : Byte) : (s.setReg x b).st = s.st := rfl
@[simp] theorem setReg_draws (x : RegIdx) (b : Byte) : (s.setReg x b).draws = s.draws := rfl

@[simp] theorem setIndexReg_v (a : Word) : (s.setIndexReg a).v = s.v := rfl
@[simp] theorem setIndexReg_index (a : Word) : (s.setIndexReg a).index = a := rfl
@[simp] theorem setIndexReg_pc (a : Word) : (s.setIndexReg a).pc = s.pc := rfl
@[simp] theorem setIndexReg_sp (a : Word) : (s.setIndexReg a).sp = s.sp := rfl
@[simp] theorem setIndexReg_stack (a : Word) : (s.setIndexReg a).stack = s.stack := rfl
@[simp] theorem setIndexReg_mem (a : Word) : (s.setIndexReg a).mem = s.mem := rfl
@[simp] theorem setIndexReg_fb (a : Word) : (s.setIndexReg a).fb = s.fb := rfl
@[simp] theorem setIndexReg_key (a : Word) : (s.setIndexReg a).key = s.key := rfl
@[simp] theorem setIndexReg_lastKey (a : Word) : (s.setIndexReg a).lastKey = s.lastKey := rfl
@[simp] theorem setIndexReg_dt (a : Word) : (s.setIndexReg a).dt = s.dt := rfl
@[simp] theorem setIndexReg_st (a : Word) : (s.setIndexReg a).st = s.st := rfl
@[simp] theorem setIndexReg_draws (a : Word) : (s.setIndexReg a).draws = s.draws := rfl

@[simp] theorem storeBytes_v (a : Word) (vs : List Byte) : (s.storeBytes a vs).v = s.v := rfl
@[simp] theorem storeBytes_index (a : Word) (vs : List Byte) : (s.storeBytes a vs).index = s.index := rfl
@[simp] theorem storeBytes_pc (a : Word) (vs : List Byte) : (s.storeBytes a vs).pc = s.pc := rfl
@[simp] theorem storeBytes_sp (a : Word) (vs : List Byte) : (s.storeBytes a vs).sp = s.sp := rfl
@[simp] theorem storeBytes_stack (a : Word) (vs : List Byte) : (s.storeBytes a vs).stack = s.stack := rfl
@[simp] theorem storeBytes_mem (a : Word) (vs : List Byte) : (s.storeBytes a vs).mem = s.mem.writeBytes a vs := rfl
@[simp] theorem storeBytes_fb (a : Word) (vs : List Byte) : (s.storeBytes a vs).fb = s.fb := rfl
@[simp] theorem storeBytes_key (a : Word) (vs : List Byte) : (s.storeBytes a vs).key = s.key := rfl
@[simp] theorem storeBytes_lastKey (a : Word) (vs : List Byte) : (s.storeBytes a vs).lastKey = s.lastKey := rfl
@[simp] theorem storeBytes_dt (a : Word) (vs : List Byte) : (s.storeBytes a vs).dt = s.dt := rfl
@[simp] theorem storeBytes_st (a : Word) (vs : List Byte) : (s.storeBytes a vs).st = s.st := rfl
@[simp] theorem storeBytes_draws (a : Word) (vs : List Byte) : (s.storeBytes a vs).draws = s.draws := rfl

@[simp] theorem push_v (a : Word) : (s.push a).v = s.v := rfl
@[simp] theorem push_index (a : Word) : (s.push a).index = s.index := rfl
@[simp] theorem push_pc (a : Word) : (s.push a).pc = s.pc := rfl
@[simp] theorem push_sp (a : Word) : (s.push a).sp = s.sp + 1 := rfl
@[simp] theorem push_stack (a : Word) : (s.push a).stack = s.stack.set s.sp.toNat a := rfl
@[simp] theorem push_mem (a : Word) : (s.push a).mem = s.mem := rfl
@[simp] theorem push_fb (a : Word) : (s.push a).fb = s.fb := rfl
@[simp] theorem push_key (a : Word) : (s.push a).key = s.key := rfl
@[simp] theorem push_lastKey (a : Word) : (s.push a).lastKey = s.lastKey := rfl
@[simp] theorem push_dt (a : Word) : (s.push a).dt = s.dt := rfl
@[simp] theorem push_st (a : Word) : (s.push a).st = s.st := rfl
@[simp] theorem push_draws (a : Word) : (s.push a).draws = s.draws := rfl

@[simp] theorem popPc_v : s.popPc.v = s.v := rfl
@[simp] theorem popPc_index : s.popPc.index = s.index := rfl
@[simp] theorem popPc_pc : s.popPc.pc = s.stackAt (s.sp - 1) := rfl
@[simp] theorem popPc_sp : s.popPc.sp = s.sp - 1 := rfl
@[simp] theorem popPc_stack : s.popPc.stack = s.stack := rfl
@[simp] theorem popPc_mem : s.popPc.mem = s.mem := rfl
@[simp] theorem popPc_fb : s.popPc.fb = s.fb := rfl
@[simp] theorem popPc_key : s.popPc.key = s.key := rfl
@[simp] theorem popPc_lastKey : s.popPc.lastKey = s.lastKey := rfl
@[simp] theorem popPc_dt : s.popPc.dt = s.dt := rfl
@[simp] theorem popPc_st : s.popPc.st = s.st := rfl
@[simp] theorem popPc_draws : s.popPc.draws = s.draws := rfl

@[simp] theorem byteAt_setReg (x : RegIdx) (b : Byte) (c : Word) : (s.setReg x b).byteAt c = s.byteAt c := rfl
@[simp] theorem stackAt_setReg (x : RegIdx) (b : Byte) (k : Nibble) : (s.setReg x b).stackAt k = s.stackAt k := rfl
@[simp] theorem keyDown_setReg (x : RegIdx) (b : Byte) (k : Nibble) : (s.setReg x b).keyDown k = s.keyDown k := rfl
@[simp] theorem pixel_setReg (x : RegIdx) (b : Byte) (r : Fin 32) (c : Fin 64) : (s.setReg x b).pixel r c = s.pixel r c := rfl

@[simp] theorem reg_setIndexReg (a : Word) (r : RegIdx) : (s.setIndexReg a).reg r = s.reg r := rfl
@[simp] theorem byteAt_setIndexReg (a : Word) (c : Word) : (s.setIndexReg a).byteAt c = s.byteAt c := rfl
@[simp] theorem stackAt_setIndexReg (a : Word) (k : Nibble) : (s.setIndexReg a).stackAt k = s.stackAt k := rfl
@[simp] theorem keyDown_setIndexReg (a : Word) (k : Nibble) : (s.setIndexReg a).keyDown k = s.keyDown k := rfl
@[simp] theorem pixel_setIndexReg (a : Word) (r : Fin 32) (c : Fin 64) : (s.setIndexReg a).pixel r c = s.pixel r c := rfl

@[simp] theorem reg_storeBytes (a : Word) (vs : List Byte) (r : RegIdx) : (s.storeBytes a vs).reg r = s.reg r := rfl
@[simp] theorem stackAt_storeBytes (a : Word) (vs : List Byte) (k : Nibble) : (s.storeBytes a vs).stackAt k = s.stackAt k := rfl
@[simp] theorem keyDown_storeBytes (a : Word) (vs : List Byte) (k : Nibble) : (s.storeBytes a vs).keyDown k = s.keyDown k := rfl
@[simp] theorem pixel_storeBytes (a : Word) (vs : List Byte) (r : Fin 32) (c : Fin 64) : (s.storeBytes a vs).pixel r c = s.pixel r c := rfl

@[simp] theorem reg_push (a : Word) (r : RegIdx) : (s.push a).reg r = s.reg r := rfl
@[simp] theorem byteAt_push (a : Word) (c : Word) : (s.push a).byteAt c = s.byteAt c := rfl
@[simp] theorem keyDown_push (a : Word) (k : Nibble) : (s.push a).keyDown k = s.keyDown k := rfl
@[simp] theorem pixel_push (a : Word) (r : Fin 32) (c : Fin 64) : (s.push a).pixel r c = s.pixel r c := rfl

@[simp] theorem reg_popPc (r : RegIdx) : s.popPc.reg r = s.reg r := rfl
@[simp] theorem byteAt_popPc (c : Word) : s.popPc.byteAt c = s.byteAt c := rfl
@[simp] theorem stackAt_popPc (k : Nibble) : s.popPc.stackAt k = s.stackAt k := rfl
@[simp] theorem keyDown_popPc (k : Nibble) : s.popPc.keyDown k = s.keyDown k := rfl
@[simp] theorem pixel_popPc (r : Fin 32) (c : Fin 64) : s.popPc.pixel r c = s.pixel r c := rfl

@[simp] theorem setPc_v (a : Word) : (s.setPc a).v = s.v := rfl
@[simp] theorem setPc_index (a : Word) : (s.setPc a).index = s.index := rfl
@[simp] theorem setPc_pc (a : Word) : (s.setPc a).pc = a := rfl
@[simp] theorem setPc_sp (a : Word) : (s.setPc a).sp = s.sp := rfl
@[simp] theorem setPc_stack (a : Word) : (s.setPc a).stack = s.stack := rfl
@[simp] theorem setPc_mem (a : Word) : (s.setPc a).mem = s.mem := rfl
@[simp] theorem setPc_fb (a : Word) : (s.setPc a).fb = s.fb := rfl
@[simp] theorem setPc_key (a : Word) : (s.setPc a).key = s.key := rfl
@[simp] theorem setPc_lastKey (a : Word) : (s.setPc a).lastKey = s.lastKey := rfl
@[simp] theorem setPc_dt (a : Word) : (s.setPc a).dt = s.dt := rfl
@[simp] theorem setPc_st (a : Word) : (s.setPc a).st = s.st := rfl
@[simp] theorem setPc_draws (a : Word) : (s.setPc a).draws = s.draws := rfl
@[simp] theorem reg_setPc (a : Word) (r : RegIdx) : (s.setPc a).reg r = s.reg r := rfl
@[simp] theorem byteAt_setPc (a : Word) (c : Word) : (s.setPc a).byteAt c = s.byteAt c := rfl
@[simp] theorem stackAt_setPc (a : Word) (k : Nibble) : (s.setPc a).stackAt k = s.stackAt k := rfl
@[simp] theorem keyDown_setPc (a : Word) (k : Nibble) : (s.setPc a).keyDown k = s.keyDown k := rfl
@[simp] theorem pixel_setPc (a : Word) (r : Fin 32) (c : Fin 64) : (s.setPc a).pixel r c = s.pixel r c := rfl

@[simp] theorem setFb_v (a : FrameBuffer) : (s.setFb a).v = s.v := rfl
@[simp] theorem setFb_index (a : FrameBuffer) : (s.setFb a).index = s.index := rfl
@[simp] theorem setFb_pc (a : FrameBuffer) : (s.setFb a).pc = s.pc := rfl
@[simp] theorem setFb_sp (a : FrameBuffer) : (s.setFb a).sp = s.sp := rfl
@[simp] theorem setFb_stack (a : FrameBuffer) : (s.setFb a).stack = s.stack := rfl
@[simp] theorem setFb_mem (a : FrameBuffer) : (s.setFb a).mem = s.mem := rfl
@[simp] theorem setFb_fb (a : FrameBuffer) : (s.setFb a).fb = a := rfl
@[simp] theorem setFb_key (a : FrameBuffer) : (s.setFb a).key = s.key := rfl
@[simp] theorem setFb_lastKey (a : FrameBuffer) : (s.setFb a).lastKey = s.lastKey := rfl
@[simp] theorem setFb_dt (a : FrameBuffer) : (s.setFb a).dt = s.dt := rfl
@[simp] theorem setFb_st (a : FrameBuffer) : (s.setFb a).st = s.st := rfl
@[simp] theorem setFb_draws (a : FrameBuffer) : (s.setFb a).draws = s.draws := rfl
@[simp] theorem reg_setFb (a : FrameBuffer) (r : RegIdx) : (s.setFb a).reg r = s.reg r := rfl
@[simp] theorem byteAt_setFb (a : FrameBuffer) (c : Word) : (s.setFb a).byteAt c = s.byteAt c := rfl
@[simp] theorem stackAt_setFb (a : FrameBuffer) (k : Nibble) : (s.setFb a).stackAt k = s.stackAt k := rfl
@[simp] theorem keyDown_setFb (a : FrameBuffer) (k : Nibble) : (s.setFb a).keyDown k = s.keyDown k := rfl
@[simp] theorem pixel_setFb (a : FrameBuffer) (r : Fin 32) (c : Fin 64) : (s.setFb a).pixel r c = a[r][c] := rfl

@[simp] theorem setDt_v (a : Byte) : (s.setDt a).v = s.v := rfl
@[simp] theorem setDt_index (a : Byte) : (s.setDt a).index = s.index := rfl
@[simp] theorem setDt_pc (a : Byte) : (s.setDt a).pc = s.pc := rfl
@[simp] theorem setDt_sp (a : Byte) : (s.setDt a).sp = s.sp := rfl
@[simp] theorem setDt_stack (a : Byte) : (s.setDt a).stack = s.stack := rfl
@[simp] theorem setDt_mem (a : Byte) : (s.setDt a).mem = s.mem := rfl
@[simp] theorem setDt_fb (a : Byte) : (s.setDt a).fb = s.fb := rfl
@[simp] theorem setDt_key (a : Byte) : (s.setDt a).key = s.key := rfl
@[simp] theorem setDt_lastKey (a : Byte) : (s.setDt a).lastKey = s.lastKey := rfl
@[simp] theorem setDt_dt (a : Byte) : (s.setDt a).dt = a := rfl
@[simp] theorem setDt_st (a : Byte) : (s.setDt a).st = s.st := rfl
@[simp] theorem setDt_draws (a : Byte) : (s.setDt a).draws = s.draws := rfl
@[simp] theorem reg_setDt (a : Byte) (r : RegIdx) : (s.setDt a).reg r = s.reg r := rfl
@[simp] theorem byteAt_setDt (a : Byte) (c : Word) : (s.setDt a).byteAt c = s.byteAt c := rfl
@[simp] theorem stackAt_setDt (a : Byte) (k : Nibble) : (s.setDt a).stackAt k = s.stackAt k := rfl
@[simp] theorem keyDown_setDt (a : Byte) (k : Nibble) : (s.setDt a).keyDown k = s.keyDown k := rfl
@[simp] theorem pixel_setDt (a : Byte) (r : Fin 32) (c : Fin 64) : (s.setDt a).pixel r c = s.pixel r c := rfl

@[simp] theorem setSt_v (a : Byte) : (s.setSt a).v = s.v := rfl
@[simp] theorem setSt_index (a : Byte) : (s.setSt a).index = s.index := rfl
@[simp] theorem setSt_pc (a : Byte) : (s.setSt a).pc = s.pc := rfl
@[simp] theorem setSt_sp (a : Byte) : (s.setSt a).sp = s.sp := rfl
@[simp] theorem setSt_stack (a : Byte) : (s.setSt a).stack = s.stack := rfl
@[simp] theorem setSt_mem (a : Byte) : (s.setSt a).mem = s.mem := rfl
@[simp] theorem setSt_fb (a : Byte) : (s.setSt a).fb = s.fb := rfl
@[simp] theorem setSt_key (a : Byte) : (s.setSt a).key = s.key := rfl
@[simp] theorem setSt_lastKey (a : Byte) : (s.setSt a).lastKey = s.lastKey := rfl
@[simp] theorem setSt_dt (a : Byte) : (s.setSt a).dt = s.dt := rfl
@[simp] theorem setSt_st (a : Byte) : (s.setSt a).st = a := rfl
@[simp] theorem setSt_draws (a : Byte) : (s.setSt a).draws = s.draws := rfl
@[simp] theorem reg_setSt (a : Byte) (r : RegIdx) : (s.setSt a).reg r = s.reg r := rfl
@[simp] theorem byteAt_setSt (a : Byte) (c : Word) : (s.setSt a).byteAt c = s.byteAt c := rfl
@[simp] theorem stackAt_setSt (a : Byte) (k : Nibble) : (s.setSt a).stackAt k = s.stackAt k := rfl
@[simp] theorem keyDown_setSt (a : Byte) (k : Nibble) : (s.setSt a).keyDown k = s.keyDown k := rfl
@[simp] theorem pixel_setSt (a : Byte) (r : Fin 32) (c : Fin 64) : (s.setSt a).pixel r c = s.pixel r c := rfl

/-- A register reads as last written (10_state.md R21). -/
theorem reg_setReg (x r : RegIdx) (b : Byte) : (s.setReg x b).reg r = if r = x then b else s.reg r := by
  simp only [reg, setReg, Vector.getElem_set, BitVec.toNat_inj, eq_comm (a := x)]

@[simp] theorem reg_setReg_self (x : RegIdx) (b : Byte) : (s.setReg x b).reg x = b := by simp [reg_setReg]

theorem reg_setReg_of_ne {x r : RegIdx} (h : r ≠ x) (b : Byte) : (s.setReg x b).reg r = s.reg r := by
  simp [reg_setReg, h]

/-- Result first, flag last: VF holds the flag whatever x is (40_step_cycle.md R125). -/
theorem reg_setResultAndFlag (x r : RegIdx) (result flag : Byte) :
    (s.setResultAndFlag x result flag).reg r = if r = flagReg then flag else if r = x then result else s.reg r := by
  simp only [setResultAndFlag, reg_setReg]

/-- The entry under the new pointer is the one pushed, every other entry stays (10_state.md R25). -/
theorem stackAt_push (a : Word) (k : Nibble) : (s.push a).stackAt k = if k = s.sp then a else s.stackAt k := by
  simp only [stackAt, push, Vector.getElem_set, BitVec.toNat_inj, eq_comm (a := s.sp)]

/-- What a run of register writes does: registers x to x + length - 1 get the bytes, no other register changes
(43_index_memory.md R195). -/
theorem reg_setRegsFrom (x : RegIdx) (bs : List Byte) (h : x.toNat + bs.length ≤ 16) (r : RegIdx) :
    (setRegsFrom x bs s).reg r =
      if hr : x.toNat ≤ r.toNat ∧ r.toNat - x.toNat < bs.length then bs[r.toNat - x.toNat]'hr.2 else s.reg r := by
  induction bs generalizing x s with
  | nil => simp [setRegsFrom]
  | cons b bs ih =>
    simp only [setRegsFrom, List.length_cons] at h ⊢
    rcases bs with _ | ⟨c, bs⟩
    · simp only [setRegsFrom, reg_setReg]
      by_cases hrx : r = x
      · subst hrx; simp
      · have : r.toNat ≠ x.toNat := fun h => hrx (BitVec.eq_of_toNat_eq h)
        rw [if_neg hrx, dif_neg]
        simp; omega
    · have hx : (x + 1).toNat = x.toNat + 1 := by
        have h1 : (1 : RegIdx).toNat = 1 := rfl
        simp only [List.length_cons] at h
        simp only [BitVec.toNat_add, h1]; omega
      rw [ih _ _ (by rw [hx]; omega)]
      simp only [hx, reg_setReg]
      by_cases hrx : r = x
      · subst hrx; simp
      · have hne : r.toNat ≠ x.toNat := fun h => hrx (BitVec.eq_of_toNat_eq h)
        rw [if_neg hrx]
        by_cases hle : x.toNat + 1 ≤ r.toNat
        · have e : r.toNat - x.toNat = r.toNat - (x.toNat + 1) + 1 := by omega
          simp only [hle, true_and, e, List.length_cons, List.getElem_cons_succ]
          by_cases hc : r.toNat - (x.toNat + 1) < bs.length + 1
          · rw [dif_pos hc, dif_pos (by omega)]
          · rw [dif_neg hc, dif_neg (by omega)]
        · rw [dif_neg (by omega), dif_neg (by omega)]

@[simp] theorem setRegsFrom_index (x : RegIdx) (bs : List Byte) : (setRegsFrom x bs s).index = s.index := by
  induction bs generalizing x s with
  | nil => rfl
  | cons b bs ih => simp [setRegsFrom, ih]
@[simp] theorem setRegsFrom_pc (x : RegIdx) (bs : List Byte) : (setRegsFrom x bs s).pc = s.pc := by
  induction bs generalizing x s with
  | nil => rfl
  | cons b bs ih => simp [setRegsFrom, ih]
@[simp] theorem setRegsFrom_sp (x : RegIdx) (bs : List Byte) : (setRegsFrom x bs s).sp = s.sp := by
  induction bs generalizing x s with
  | nil => rfl
  | cons b bs ih => simp [setRegsFrom, ih]
@[simp] theorem setRegsFrom_stack (x : RegIdx) (bs : List Byte) : (setRegsFrom x bs s).stack = s.stack := by
  induction bs generalizing x s with
  | nil => rfl
  | cons b bs ih => simp [setRegsFrom, ih]
@[simp] theorem setRegsFrom_mem (x : RegIdx) (bs : List Byte) : (setRegsFrom x bs s).mem = s.mem := by
  induction bs generalizing x s with
  | nil => rfl
  | cons b bs ih => simp [setRegsFrom, ih]
@[simp] theorem setRegsFrom_fb (x : RegIdx) (bs : List Byte) : (setRegsFrom x bs s).fb = s.fb := by
  induction bs generalizing x s with
  | nil => rfl
  | cons b bs ih => simp [setRegsFrom, ih]
@[simp] theorem setRegsFrom_key (x : RegIdx) (bs : List Byte) : (setRegsFrom x bs s).key = s.key := by
  induction bs generalizing x s with
  | nil => rfl
  | cons b bs ih => simp [setRegsFrom, ih]
@[simp] theorem setRegsFrom_lastKey (x : RegIdx) (bs : List Byte) : (setRegsFrom x bs s).lastKey = s.lastKey := by
  induction bs generalizing x s with
  | nil => rfl
  | cons b bs ih => simp [setRegsFrom, ih]
@[simp] theorem setRegsFrom_dt (x : RegIdx) (bs : List Byte) : (setRegsFrom x bs s).dt = s.dt := by
  induction bs generalizing x s with
  | nil => rfl
  | cons b bs ih => simp [setRegsFrom, ih]
@[simp] theorem setRegsFrom_st (x : RegIdx) (bs : List Byte) : (setRegsFrom x bs s).st = s.st := by
  induction bs generalizing x s with
  | nil => rfl
  | cons b bs ih => simp [setRegsFrom, ih]
@[simp] theorem setRegsFrom_draws (x : RegIdx) (bs : List Byte) : (setRegsFrom x bs s).draws = s.draws := by
  induction bs generalizing x s with
  | nil => rfl
  | cons b bs ih => simp [setRegsFrom, ih]

/-- Byte k of V0 to Vx is V[k] (43_index_memory.md R194). -/
theorem getElem_regsUpTo (x : RegIdx) (k : Nat) (hk : k < (s.regsUpTo x).length) :
    (s.regsUpTo x)[k] = s.reg (BitVec.ofNat 4 k) := by
  have h16 : k < 16 := by simp [regsUpTo] at hk; omega
  simp only [regsUpTo, List.getElem_take, reg, BitVec.toNat_ofNat, Vector.getElem_toList,
    Nat.mod_eq_of_lt h16]

@[simp] theorem length_regsUpTo (x : RegIdx) : (s.regsUpTo x).length = x.toNat + 1 := by
  have := x.isLt
  simp [regsUpTo]; omega

/-! The result and flag writes, and the draw. -/

@[simp] theorem setResultAndFlag_index (x : RegIdx) (a b : Byte) : (s.setResultAndFlag x a b).index = s.index := rfl
@[simp] theorem setResultAndFlag_pc (x : RegIdx) (a b : Byte) : (s.setResultAndFlag x a b).pc = s.pc := rfl
@[simp] theorem setResultAndFlag_sp (x : RegIdx) (a b : Byte) : (s.setResultAndFlag x a b).sp = s.sp := rfl
@[simp] theorem setResultAndFlag_stack (x : RegIdx) (a b : Byte) : (s.setResultAndFlag x a b).stack = s.stack := rfl
@[simp] theorem setResultAndFlag_mem (x : RegIdx) (a b : Byte) : (s.setResultAndFlag x a b).mem = s.mem := rfl
@[simp] theorem setResultAndFlag_fb (x : RegIdx) (a b : Byte) : (s.setResultAndFlag x a b).fb = s.fb := rfl
@[simp] theorem setResultAndFlag_key (x : RegIdx) (a b : Byte) : (s.setResultAndFlag x a b).key = s.key := rfl
@[simp] theorem setResultAndFlag_lastKey (x : RegIdx) (a b : Byte) : (s.setResultAndFlag x a b).lastKey = s.lastKey := rfl
@[simp] theorem setResultAndFlag_dt (x : RegIdx) (a b : Byte) : (s.setResultAndFlag x a b).dt = s.dt := rfl
@[simp] theorem setResultAndFlag_st (x : RegIdx) (a b : Byte) : (s.setResultAndFlag x a b).st = s.st := rfl
@[simp] theorem setResultAndFlag_draws (x : RegIdx) (a b : Byte) : (s.setResultAndFlag x a b).draws = s.draws := rfl

@[simp] theorem randomWith_index (r : Byte) (x : RegIdx) (kk : Byte) : (randomWith r x kk s).index = s.index := rfl
@[simp] theorem randomWith_pc (r : Byte) (x : RegIdx) (kk : Byte) : (randomWith r x kk s).pc = s.pc := rfl
@[simp] theorem randomWith_sp (r : Byte) (x : RegIdx) (kk : Byte) : (randomWith r x kk s).sp = s.sp := rfl
@[simp] theorem randomWith_stack (r : Byte) (x : RegIdx) (kk : Byte) : (randomWith r x kk s).stack = s.stack := rfl
@[simp] theorem randomWith_mem (r : Byte) (x : RegIdx) (kk : Byte) : (randomWith r x kk s).mem = s.mem := rfl
@[simp] theorem randomWith_fb (r : Byte) (x : RegIdx) (kk : Byte) : (randomWith r x kk s).fb = s.fb := rfl
@[simp] theorem randomWith_key (r : Byte) (x : RegIdx) (kk : Byte) : (randomWith r x kk s).key = s.key := rfl
@[simp] theorem randomWith_lastKey (r : Byte) (x : RegIdx) (kk : Byte) : (randomWith r x kk s).lastKey = s.lastKey := rfl
@[simp] theorem randomWith_dt (r : Byte) (x : RegIdx) (kk : Byte) : (randomWith r x kk s).dt = s.dt := rfl
@[simp] theorem randomWith_st (r : Byte) (x : RegIdx) (kk : Byte) : (randomWith r x kk s).st = s.st := rfl
@[simp] theorem randomWith_draws (r : Byte) (x : RegIdx) (kk : Byte) : (randomWith r x kk s).draws = s.draws + 1 := rfl

@[simp] theorem byteAt_setResultAndFlag (x : RegIdx) (a b : Byte) (c : Word) :
    (s.setResultAndFlag x a b).byteAt c = s.byteAt c := rfl
@[simp] theorem stackAt_setResultAndFlag (x : RegIdx) (a b : Byte) (k : Nibble) :
    (s.setResultAndFlag x a b).stackAt k = s.stackAt k := rfl
@[simp] theorem keyDown_setResultAndFlag (x : RegIdx) (a b : Byte) (k : Nibble) :
    (s.setResultAndFlag x a b).keyDown k = s.keyDown k := rfl
@[simp] theorem pixel_setResultAndFlag (x : RegIdx) (a b : Byte) (r : Fin 32) (c : Fin 64) :
    (s.setResultAndFlag x a b).pixel r c = s.pixel r c := rfl
@[simp] theorem byteAt_randomWith (r : Byte) (x : RegIdx) (kk : Byte) (a : Word) :
    (randomWith r x kk s).byteAt a = s.byteAt a := rfl
@[simp] theorem stackAt_randomWith (r : Byte) (x : RegIdx) (kk : Byte) (k : Nibble) :
    (randomWith r x kk s).stackAt k = s.stackAt k := rfl
@[simp] theorem keyDown_randomWith (r : Byte) (x : RegIdx) (kk : Byte) (k : Nibble) :
    (randomWith r x kk s).keyDown k = s.keyDown k := rfl
@[simp] theorem pixel_randomWith (r : Byte) (x : RegIdx) (kk : Byte) (p : Fin 32) (c : Fin 64) :
    (randomWith r x kk s).pixel p c = s.pixel p c := rfl
theorem reg_randomWith (d : Byte) (x : RegIdx) (kk : Byte) (r : RegIdx) :
    (randomWith d x kk s).reg r = if r = x then d &&& kk else s.reg r := reg_setReg s x r _

end Sys2Proof.Machine.State

namespace Sys2Proof.Machine

/-! The flag (10_state.md R22). -/

theorem flagReg_eq : flagReg = 0xF := rfl

theorem flagByte_eq_one_iff (b : Bool) : flagByte b = 0x01 ↔ b = true := by cases b <;> decide

theorem flagByte_eq_zero_iff (b : Bool) : flagByte b = 0x00 ↔ b = false := by cases b <;> decide

/-! The epilogue (40_step_cycle.md R123). -/

@[simp] theorem nextPc_cont (pc : Word) : nextPc .cont pc = pc + 2 := rfl
@[simp] theorem nextPc_skip (pc : Word) : nextPc .skip pc = pc + 4 := rfl
@[simp] theorem nextPc_jump (target pc : Word) : nextPc (.jump target) pc = target := rfl
@[simp] theorem nextPc_hold (pc : Word) : nextPc .hold pc = pc := rfl

/-- A skip instruction's pc: 4 past it when the condition holds, else 2. -/
@[simp] theorem nextPc_skipWhen (b : Bool) (pc : Word) : nextPc (skipWhen b) pc = if b = true then pc + 4 else pc + 2 := by
  cases b <;> rfl

end Sys2Proof.Machine
end

