-- ==== Sys2Proof/Laws/Display.lean ====
section
/-! SUPPORT. What drawing does, said once: which cells a row and a sprite flip, and when they collide
(spec/44_display.md R211 to R213). The loops visit no cell twice (R212), so the order of the loops does not show. -/

namespace Sys2Proof.Machine

theorem FrameBuffer.flip_getElem (fb : FrameBuffer) (r r' : Fin 32) (c c' : Fin 64) :
    (FrameBuffer.flip fb r c)[r'][c'] = if r' = r ∧ c' = c then fb[r'][c'] ^^^ 0xFF else fb[r'][c'] := by
  by_cases hr : r' = r
  · subst hr
    by_cases hc : c' = c
    · subst hc; simp [flip]
    · have : c.val ≠ c'.val := fun h => hc (Fin.ext h.symm)
      simp [flip, hc, Vector.getElem_set_ne _ _ this]
  · have : r.val ≠ r'.val := fun h => hr (Fin.ext h.symm)
    simp [flip, hr, Vector.getElem_set_ne _ _ this]

@[simp] theorem drawPixel_fb (r : Fin 32) (c : Fin 64) (d : Canvas) :
    (drawPixel r c d).fb = FrameBuffer.flip d.fb r c := rfl

theorem drawPixel_collision (r : Fin 32) (c : Fin 64) (d : Canvas) :
    (drawPixel r c d).collision = true ↔ d.collision = true ∨ d.fb[r][c] = Config.pixOn := by
  simp [drawPixel]

theorem spriteCol_inj {x0 : Byte} {i j : Nat} (hi : i < 8) (hj : j < 8) (h : spriteCol x0 i = spriteCol x0 j) : i = j := by
  have := congrArg Fin.val h
  simp only [spriteCol, Fin.val_ofNat] at this
  omega

theorem spriteRow_inj {y0 : Byte} {i j : Nat} (hij : i ≤ j) (hd : j < i + 32) (h : spriteRow y0 i = spriteRow y0 j) :
    i = j := by
  have := congrArg Fin.val h
  simp only [spriteRow, Fin.val_ofNat] at this
  omega

/-- A run over distinct columns below 8 flips the cells of its set bits and collides at those that are on. -/
theorem drawColumns_spec (x0 : Byte) (r : Fin 32) (row : Byte) (js : List Nat) (hlt : ∀ j ∈ js, j < 8) (hnd : js.Nodup)
    (d : Canvas) :
    let e := js.foldl (fun d c => if row.getLsbD (7 - c) then drawPixel r (spriteCol x0 c) d else d) d
    (∀ r' c', e.fb[r'][c'] =
      if r' = r ∧ ∃ j ∈ js, row.getLsbD (7 - j) = true ∧ c' = spriteCol x0 j then d.fb[r'][c'] ^^^ 0xFF else d.fb[r'][c']) ∧
    (e.collision = true ↔ d.collision = true ∨
      ∃ j ∈ js, row.getLsbD (7 - j) = true ∧ d.fb[r][spriteCol x0 j] = Config.pixOn) := by
  induction js generalizing d with
  | nil => simp
  | cons j js ih =>
    rw [List.nodup_cons] at hnd
    have hlt' : ∀ i ∈ js, i < 8 := fun i hi => hlt i (by simp [hi])
    have hcol : ∀ i ∈ js, spriteCol x0 i ≠ spriteCol x0 j := fun i hi h =>
      hnd.1 (spriteCol_inj (hlt' i hi) (hlt j (by simp)) h ▸ hi)
    simp only [List.foldl_cons]
    obtain ⟨hfb, hco⟩ := ih hlt' hnd.2 (if row.getLsbD (7 - j) then drawPixel r (spriteCol x0 j) d else d)
    refine ⟨fun r' c' => ?_, ?_⟩
    · rw [hfb]
      by_cases hb : row.getLsbD (7 - j) = true
      · simp only [hb, if_true, drawPixel_fb, FrameBuffer.flip_getElem, List.exists_mem_cons_iff, true_and]
        by_cases hr : r' = r
        · by_cases hc : c' = spriteCol x0 j
          · subst hc
            have : ¬ ∃ i ∈ js, row.getLsbD (7 - i) = true ∧ spriteCol x0 j = spriteCol x0 i := by
              rintro ⟨i, hi, -, h⟩; exact hcol i hi h.symm
            simp [hr, this]
          · simp [hr, hc]
        · simp [hr]
      · simp [hb]
    · rw [hco]
      by_cases hb : row.getLsbD (7 - j) = true
      · simp only [hb, if_true, drawPixel_fb, drawPixel_collision, FrameBuffer.flip_getElem, List.exists_mem_cons_iff,
          true_and, or_assoc]
        refine or_congr_right (or_congr_right (exists_congr fun i => and_congr_right fun hi => and_congr_right fun _ => ?_))
        simp [hcol i hi]
      · simp [hb]

/-- A row: the columns are 0 to 7. -/
theorem drawRow_spec (x0 : Byte) (r : Fin 32) (row : Byte) (d : Canvas) :
    (∀ r' c', (drawRow x0 r row d).fb[r'][c'] =
      if r' = r ∧ ∃ j < 8, row.getLsbD (7 - j) = true ∧ c' = spriteCol x0 j then d.fb[r'][c'] ^^^ 0xFF
      else d.fb[r'][c']) ∧
    ((drawRow x0 r row d).collision = true ↔ d.collision = true ∨
      ∃ j < 8, row.getLsbD (7 - j) = true ∧ d.fb[r][spriteCol x0 j] = Config.pixOn) := by
  have h := drawColumns_spec x0 r row [0, 1, 2, 3, 4, 5, 6, 7] (by decide) (by decide) d
  have hm : ∀ j, j ∈ [0, 1, 2, 3, 4, 5, 6, 7] ↔ j < 8 := by intro j; simp; omega
  simp only [hm] at h
  exact h

/-- A sprite of at most 32 rows: no two rows are the same row of the frame buffer, so each cell under a set bit flips once,
and a collision is a cell under a set bit that was on before the draw. -/
theorem drawRows_spec (x0 y0 : Byte) (r0 : Nat) (rows : List Byte) (hl : rows.length ≤ 32) (d : Canvas) :
    (∀ r c, (drawRows x0 y0 r0 rows d).fb[r][c] =
      if ∃ (k : Nat) (hk : k < rows.length), ∃ j < 8, rows[k].getLsbD (7 - j) = true ∧ r = spriteRow y0 (r0 + k) ∧
        c = spriteCol x0 j then d.fb[r][c] ^^^ 0xFF else d.fb[r][c]) ∧
    ((drawRows x0 y0 r0 rows d).collision = true ↔ d.collision = true ∨
      ∃ (k : Nat) (hk : k < rows.length), ∃ j < 8, rows[k].getLsbD (7 - j) = true ∧
        d.fb[spriteRow y0 (r0 + k)][spriteCol x0 j] = Config.pixOn) := by
  induction rows generalizing r0 d with
  | nil => simp [drawRows]
  | cons row rows ih =>
    simp only [List.length_cons] at hl
    obtain ⟨hfb, hco⟩ := ih (r0 + 1) (by omega) (drawRow x0 (spriteRow y0 r0) row d)
    obtain ⟨rfb, rco⟩ := drawRow_spec x0 (spriteRow y0 r0) row d
    have hne : ∀ k < rows.length, spriteRow y0 (r0 + 1 + k) ≠ spriteRow y0 r0 := fun k hk h => by
      have := spriteRow_inj (by omega : r0 ≤ r0 + 1 + k) (by omega) h.symm
      omega
    have hsplit : ∀ P : Nat → Byte → Prop, (∃ (k : Nat) (hk : k < rows.length + 1), P k ((row :: rows)[k])) ↔
        P 0 row ∨ ∃ (k : Nat) (hk : k < rows.length), P (k + 1) rows[k] := by
      intro P
      constructor
      · rintro ⟨_ | k, hk, h⟩
        · exact .inl h
        · exact .inr ⟨k, by omega, h⟩
      · rintro (h | ⟨k, hk, h⟩)
        · exact ⟨0, by omega, h⟩
        · exact ⟨k + 1, by omega, h⟩
    have hk1 : ∀ k, r0 + (k + 1) = r0 + 1 + k := fun k => by omega
    refine ⟨fun r c => ?_, ?_⟩
    · have hs : (∃ (k : Nat) (hk : k < rows.length + 1), ∃ j < 8, ((row :: rows)[k]).getLsbD (7 - j) = true ∧
            r = spriteRow y0 (r0 + k) ∧ c = spriteCol x0 j) ↔
          (r = spriteRow y0 r0 ∧ ∃ j < 8, row.getLsbD (7 - j) = true ∧ c = spriteCol x0 j) ∨
          ∃ (k : Nat) (hk : k < rows.length), ∃ j < 8, rows[k].getLsbD (7 - j) = true ∧
            r = spriteRow y0 (r0 + 1 + k) ∧ c = spriteCol x0 j := by
        refine (hsplit fun k b => ∃ j < 8, b.getLsbD (7 - j) = true ∧ r = spriteRow y0 (r0 + k) ∧
          c = spriteCol x0 j).trans (or_congr ?_ ?_)
        · exact ⟨fun ⟨j, h8, hb, hr, hc⟩ => ⟨hr, j, h8, hb, hc⟩, fun ⟨hr, j, h8, hb, hc⟩ => ⟨j, h8, hb, hr, hc⟩⟩
        · exact exists_congr fun k => exists_congr fun hk => exists_congr fun j => by rw [hk1]
      simp only [drawRows, hfb, rfb, List.length_cons, hs]
      by_cases hr : r = spriteRow y0 r0
      · have hno : ¬ ∃ (k : Nat) (hk : k < rows.length), ∃ j < 8, rows[k].getLsbD (7 - j) = true ∧
            r = spriteRow y0 (r0 + 1 + k) ∧ c = spriteCol x0 j := by
          rintro ⟨k, hk, j, -, -, h, -⟩
          exact hne k hk (h.symm.trans hr)
        simp only [hno, if_false, or_false]
      · simp only [hr, false_and, if_false, false_or]
    · have hs : (∃ (k : Nat) (hk : k < rows.length + 1), ∃ j < 8, ((row :: rows)[k]).getLsbD (7 - j) = true ∧
            d.fb[spriteRow y0 (r0 + k)][spriteCol x0 j] = Config.pixOn) ↔
          (∃ j < 8, row.getLsbD (7 - j) = true ∧ d.fb[spriteRow y0 r0][spriteCol x0 j] = Config.pixOn) ∨
          ∃ (k : Nat) (hk : k < rows.length), ∃ j < 8, rows[k].getLsbD (7 - j) = true ∧
            d.fb[spriteRow y0 (r0 + 1 + k)][spriteCol x0 j] = Config.pixOn := by
        refine (hsplit fun k b => ∃ j < 8, b.getLsbD (7 - j) = true ∧
          d.fb[spriteRow y0 (r0 + k)][spriteCol x0 j] = Config.pixOn).trans (or_congr Iff.rfl ?_)
        exact exists_congr fun k => exists_congr fun hk => exists_congr fun j => Iff.of_eq
          (congrArg (fun r : Fin 32 => j < 8 ∧ rows[k].getLsbD (7 - j) = true ∧
            d.fb[r][spriteCol x0 j] = Config.pixOn) (congrArg (spriteRow y0) (hk1 k)))
      simp only [drawRows, hco, rco, List.length_cons, hs, or_assoc]
      refine or_congr_right (or_congr_right (exists_congr fun k => exists_congr fun hk => exists_congr fun j => ?_))
      rw [rfb, if_neg fun h => hne k hk h.1]

end Sys2Proof.Machine
end

