-- ==== Sys2Proof/Laws/Frame.lean ====
section
/-! SUPPORT. Frames: what each shared operation leaves alone, place by place. -/

namespace Sys2Proof.Machine

@[simp] theorem finish_eq (o : PcOutcome) (s : State) : finish o s = .next (s.setPc (nextPc o s.pc)) := rfl

/-- The epilogue changes pc alone. -/
theorem get_setPc {l : Loc} (h : l ≠ .pc) (s : State) (p : Word) : (s.setPc p).get l = s.get l := by
  cases l <;> first | rfl | exact absurd rfl h

theorem get_setReg {l : Loc} {x : RegIdx} (h : l ≠ .reg x) (s : State) (b : Byte) : (s.setReg x b).get l = s.get l := by
  cases l with
  | reg r =>
    have hr : r ≠ x := fun hr => h (by rw [hr])
    simp only [State.get, State.reg_setReg_of_ne s hr]
  | _ => rfl

theorem get_setResultAndFlag {l : Loc} {x : RegIdx} (h : l ≠ .reg x ∧ l ≠ .reg 0xF) (s : State) (a b : Byte) :
    (s.setResultAndFlag x a b).get l = s.get l :=
  (get_setReg h.2 _ _).trans (get_setReg h.1 _ _)

theorem get_randomWith {l : Loc} {x : RegIdx} (h : l ≠ .reg x ∧ l ≠ .draws) (r kk : Byte) (s : State) :
    (randomWith r x kk s).get l = s.get l := by
  have := get_setReg h.1 s (r &&& kk)
  cases l <;> first | exact this | exact absurd rfl h.2

theorem get_setIndexReg {l : Loc} (h : l ≠ .index) (s : State) (a : Word) : (s.setIndexReg a).get l = s.get l := by
  cases l <;> first | rfl | exact absurd rfl h

theorem get_push {l : Loc} (s : State) (h : l ≠ .sp ∧ l ≠ .stack s.sp) (a : Word) : (s.push a).get l = s.get l := by
  cases l with
  | stack k => simp only [State.get, State.stackAt_push, if_neg fun hk : k = s.sp => h.2 (by rw [hk])]
  | sp => exact absurd rfl h.1
  | _ => rfl

theorem get_popPc {l : Loc} (h : l ≠ .sp ∧ l ≠ .pc) (s : State) : s.popPc.get l = s.get l := by
  cases l with
  | sp => exact absurd rfl h.1
  | pc => exact absurd rfl h.2
  | _ => rfl

/-- A store changes the bytes at its own effective addresses alone. -/
theorem get_storeBytes {l : Loc} (s : State) (a : Word) (vs : List Byte)
    (h : ∀ c, l = .mem c → ∀ k < vs.length, ea c ≠ ea (a + BitVec.ofNat 16 k)) :
    (s.storeBytes a vs).get l = s.get l := by
  cases l with
  | mem c => simp only [State.get, State.byteAt, State.storeBytes, Memory.read_writeBytes_of_ne _ _ _ (h c rfl)]
  | _ => rfl

/-- A run of register writes from V0 changes the registers it reaches alone. -/
theorem get_setRegsFrom {l : Loc} (s : State) (bs : List Byte) (hb : bs.length ≤ 16)
    (h : ∀ r, l = .reg r → ¬ r.toNat < bs.length) : (State.setRegsFrom 0 bs s).get l = s.get l := by
  cases l with
  | reg r =>
    simp only [State.get]
    rw [State.reg_setRegsFrom s 0 bs (by simpa using hb), dif_neg]
    intro hr
    exact h r rfl (by simpa using hr.2)
  | _ => simp [State.get, State.byteAt, State.stackAt, State.keyDown, State.pixel]

/-- Places that agree after a change outside `changed` agree outside any larger set. -/
theorem OnlyChanges.mono {p q : Loc → Prop} {s t : State} (h : OnlyChanges p s t) (hpq : ∀ l, p l → q l) :
    OnlyChanges q s t := fun l hl => h l fun hp => hl (hpq l hp)

theorem OnlyChanges.trans {p : Loc → Prop} {s t u : State} (h : OnlyChanges p s t) (h' : OnlyChanges p t u) :
    OnlyChanges p s u := fun l hl => (h' l hl).trans (h l hl)

/-- The cells under the sprite, in the terms of the draw loop. -/
theorem underSprite_iff (s : State) (x y : RegIdx) (n : Nibble) (r : Fin 32) (c : Fin 64) :
    s.underSprite x y n r c ↔
      ∃ (k : Nat) (hk : k < (s.mem.readBytes s.index n.toNat).length), ∃ j < 8,
        ((s.mem.readBytes s.index n.toNat)[k]).getLsbD (7 - j) = true ∧ r = spriteRow (s.reg y) (0 + k) ∧
          c = spriteCol (s.reg x) j := by
  simp only [State.underSprite, Memory.getElem_readBytes, Memory.length_readBytes, exists_prop, Nat.zero_add,
    Fin.ext_iff, spriteRow, spriteCol, Fin.val_ofNat, State.byteAt, State.indexPlus]

/-! Equal places hold equal values. -/

theorem reg_eq_of_get {s t : State} {r : RegIdx} (h : s.get (.reg r) = t.get (.reg r)) : s.reg r = t.reg r :=
  BitVec.eq_of_toNat_eq h
theorem index_eq_of_get {s t : State} (h : s.get .index = t.get .index) : s.index = t.index := BitVec.eq_of_toNat_eq h
theorem pc_eq_of_get {s t : State} (h : s.get .pc = t.get .pc) : s.pc = t.pc := BitVec.eq_of_toNat_eq h
theorem sp_eq_of_get {s t : State} (h : s.get .sp = t.get .sp) : s.sp = t.sp := BitVec.eq_of_toNat_eq h
theorem stackAt_eq_of_get {s t : State} {k : Nibble} (h : s.get (.stack k) = t.get (.stack k)) :
    s.stackAt k = t.stackAt k := BitVec.eq_of_toNat_eq h
theorem byteAt_eq_of_get {s t : State} {a : Word} (h : s.get (.mem a) = t.get (.mem a)) : s.byteAt a = t.byteAt a :=
  BitVec.eq_of_toNat_eq h
theorem pixel_eq_of_get {s t : State} {r : Fin 32} {c : Fin 64} (h : s.get (.pixel r c) = t.get (.pixel r c)) :
    s.pixel r c = t.pixel r c := BitVec.eq_of_toNat_eq h
theorem keyDown_eq_of_get {s t : State} {k : Nibble} (h : s.get (.key k) = t.get (.key k)) :
    s.keyDown k = t.keyDown k := by
  simp only [State.get] at h
  revert h
  cases s.keyDown k <;> cases t.keyDown k <;> simp
theorem lastKey_eq_of_get {s t : State} (h : s.get .lastKey = t.get .lastKey) : s.lastKey = t.lastKey :=
  BitVec.eq_of_toNat_eq h
theorem dt_eq_of_get {s t : State} (h : s.get .dt = t.get .dt) : s.dt = t.dt := BitVec.eq_of_toNat_eq h
theorem st_eq_of_get {s t : State} (h : s.get .st = t.get .st) : s.st = t.st := BitVec.eq_of_toNat_eq h

end Sys2Proof.Machine
end

