-- ==== Sys2Proof/Laws/Exec.lean ====
section
/-! SUPPORT. What exec answers for each constructor, said once: the next state, written with the shared operations. -/

namespace Sys2Proof.Machine

variable (s : State)

/-- The canvas a DrawSprite ends with (44_display.md R211). -/
def State.drawn (x y : RegIdx) (n : Nibble) : Canvas :=
  drawRows (s.reg x) (s.reg y) 0 (s.mem.readBytes s.index n.toNat) { fb := s.fb, collision := false }

theorem State.length_sprite (n : Nibble) : (s.mem.readBytes s.index n.toNat).length ≤ 32 := by
  rw [Memory.length_readBytes]; omega

/-- A cell under a set bit of the sprite flips. -/
theorem State.drawn_of_underSprite {x y : RegIdx} {n : Nibble} {r : Fin 32} {c : Fin 64} (h : s.underSprite x y n r c) :
    (s.drawn x y n).fb[r][c] = s.pixel r c ^^^ 0xFF :=
  ((drawRows_spec _ _ 0 _ (s.length_sprite n) _).1 r c).trans (if_pos ((underSprite_iff ..).1 h))

/-- Every other cell stays. -/
theorem State.drawn_of_not_underSprite {x y : RegIdx} {n : Nibble} {r : Fin 32} {c : Fin 64}
    (h : ¬ s.underSprite x y n r c) : (s.drawn x y n).fb[r][c] = s.pixel r c :=
  ((drawRows_spec _ _ 0 _ (s.length_sprite n) _).1 r c).trans (if_neg fun h' => h ((underSprite_iff ..).2 h'))

/-- A collision is a cell under a set bit that was on. -/
theorem State.drawn_collision (x y : RegIdx) (n : Nibble) :
    (s.drawn x y n).collision = true ↔ ∃ r c, s.underSprite x y n r c ∧ s.pixel r c = Config.pixOn := by
  refine (drawRows_spec _ _ 0 _ (s.length_sprite n) _).2.trans ?_
  simp only [Bool.false_eq_true, false_or, underSprite_iff]
  constructor
  · rintro ⟨k, hk, j, hj, hb, hp⟩
    exact ⟨_, _, ⟨k, hk, j, hj, hb, rfl, rfl⟩, hp⟩
  · rintro ⟨_, _, ⟨k, hk, j, hj, hb, rfl, rfl⟩, hp⟩
    exact ⟨k, hk, j, hj, hb, hp⟩

theorem exec_clear : exec .clear s = .next
    ((s.setFb (Vector.replicate 32 (Vector.replicate 64 Config.pixOff))).setPc (s.pc + 2)) := rfl
theorem exec_ret : exec .ret s = .next
    (s.popPc.setPc (s.stackAt (s.sp - 1) + 2)) := rfl
theorem exec_jump (nnn : Addr12) : exec (.jump nnn) s = .next
    (s.setPc (addrOperand nnn)) := rfl
theorem exec_call (nnn : Addr12) : exec (.call nnn) s = .next
    ((s.push s.pc).setPc (addrOperand nnn)) := rfl
theorem exec_skipEqImm (x : RegIdx) (kk : Byte) : exec (.skipEqImm x kk) s = .next
    (s.setPc (if s.reg x = kk then s.pc + 4 else s.pc + 2)) := by
  by_cases h : s.reg x = kk <;> simp [exec, execSkipEqImm, h]
theorem exec_skipNeqImm (x : RegIdx) (kk : Byte) : exec (.skipNeqImm x kk) s = .next
    (s.setPc (if s.reg x = kk then s.pc + 2 else s.pc + 4)) := by
  by_cases h : s.reg x = kk <;> simp [exec, execSkipNeqImm, h]
theorem exec_skipEqReg (x y : RegIdx) : exec (.skipEqReg x y) s = .next
    (s.setPc (if s.reg x = s.reg y then s.pc + 4 else s.pc + 2)) := by
  by_cases h : s.reg x = s.reg y <;> simp [exec, execSkipEqReg, h]
theorem exec_loadImm (x : RegIdx) (kk : Byte) : exec (.loadImm x kk) s = .next
    ((s.setReg x kk).setPc (s.pc + 2)) := rfl
theorem exec_addImm (x : RegIdx) (kk : Byte) : exec (.addImm x kk) s = .next
    ((s.setReg x (s.reg x + kk)).setPc (s.pc + 2)) := rfl
theorem exec_copy (x y : RegIdx) : exec (.copy x y) s = .next
    ((s.setReg x (s.reg y)).setPc (s.pc + 2)) := rfl
theorem exec_or (x y : RegIdx) : exec (.or x y) s = .next
    ((s.setReg x (s.reg x ||| s.reg y)).setPc (s.pc + 2)) := rfl
theorem exec_and (x y : RegIdx) : exec (.and x y) s = .next
    ((s.setReg x (s.reg x &&& s.reg y)).setPc (s.pc + 2)) := rfl
theorem exec_xor (x y : RegIdx) : exec (.xor x y) s = .next
    ((s.setReg x (s.reg x ^^^ s.reg y)).setPc (s.pc + 2)) := rfl
theorem exec_addCarry (x y : RegIdx) : exec (.addCarry x y) s = .next
    ((s.setResultAndFlag x (s.reg x + s.reg y) (carryFlag (s.reg x) (s.reg y))).setPc (s.pc + 2)) := rfl
theorem exec_subBorrow (x y : RegIdx) : exec (.subBorrow x y) s = .next
    ((s.setResultAndFlag x (s.reg x - s.reg y) (noBorrowFlag (s.reg x) (s.reg y))).setPc (s.pc + 2)) := rfl
theorem exec_shiftRight (x : RegIdx) : exec (.shiftRight x) s = .next
    ((s.setResultAndFlag x (s.reg x >>> 1) (shiftRightFlag (s.reg x))).setPc (s.pc + 2)) := rfl
theorem exec_revSubBorrow (x y : RegIdx) : exec (.revSubBorrow x y) s = .next
    ((s.setResultAndFlag x (s.reg y - s.reg x) (noBorrowFlag (s.reg y) (s.reg x))).setPc (s.pc + 2)) := rfl
theorem exec_shiftLeft (x : RegIdx) : exec (.shiftLeft x) s = .next
    ((s.setResultAndFlag x (s.reg x <<< 1) (shiftLeftFlag (s.reg x))).setPc (s.pc + 2)) := rfl
theorem exec_skipNeqReg (x y : RegIdx) : exec (.skipNeqReg x y) s = .next
    (s.setPc (if s.reg x = s.reg y then s.pc + 2 else s.pc + 4)) := by
  by_cases h : s.reg x = s.reg y <;> simp [exec, execSkipNeqReg, h]
theorem exec_setIndex (nnn : Addr12) : exec (.setIndex nnn) s = .next
    ((s.setIndexReg (addrOperand nnn)).setPc (s.pc + 2)) := rfl
theorem exec_jumpIndexed (nnn : Addr12) : exec (.jumpIndexed nnn) s = .next
    (s.setPc (addrOperand nnn + s.regWide 0)) := rfl
theorem exec_random (x : RegIdx) (kk : Byte) : exec (.random x kk) s = .next
    ((randomWith (Config.rnd s.draws) x kk s).setPc (s.pc + 2)) := rfl
theorem exec_drawSprite (x y : RegIdx) (n : Nibble) : exec (.drawSprite x y n) s = .next
    (((s.setFb (s.drawn x y n).fb).setReg flagReg (flagByte (s.drawn x y n).collision)).setPc (s.pc + 2)) := rfl
theorem exec_skipKeyPressed (x : RegIdx) : exec (.skipKeyPressed x) s = .next
    (s.setPc (if s.keyDown (s.keyOperand x) = true then s.pc + 4 else s.pc + 2)) := by
  simp only [exec, execSkipKeyPressed, finish_eq, nextPc_skipWhen]
theorem exec_skipKeyNotPressed (x : RegIdx) : exec (.skipKeyNotPressed x) s = .next
    (s.setPc (if s.keyDown (s.keyOperand x) = true then s.pc + 2 else s.pc + 4)) := by
  cases h : s.keyDown (s.keyOperand x) <;> simp [exec, execSkipKeyNotPressed, h]
theorem exec_readDelayTimer (x : RegIdx) : exec (.readDelayTimer x) s = .next
    ((s.setReg x s.dt).setPc (s.pc + 2)) := rfl
theorem exec_waitForKey (x : RegIdx) : exec (.waitForKey x) s = .next
    (if s.lastKey.toNat ≤ 15 then ((s.setReg x s.lastKey).setPc (s.pc + 2)) else s) := by
  simp only [exec, execWaitForKey]; split <;> rfl
theorem exec_setDelayTimer (x : RegIdx) : exec (.setDelayTimer x) s = .next
    ((s.setDt (s.reg x)).setPc (s.pc + 2)) := rfl
theorem exec_setSoundTimer (x : RegIdx) : exec (.setSoundTimer x) s = .next
    ((s.setSt (s.reg x)).setPc (s.pc + 2)) := rfl
theorem exec_addIndex (x : RegIdx) : exec (.addIndex x) s = .next
    ((s.setIndexReg (s.index + s.regWide x)).setPc (s.pc + 2)) := rfl
theorem exec_setIndexToDigitSprite (x : RegIdx) : exec (.setIndexToDigitSprite x) s = .next
    ((s.setIndexReg (s.regWide x * 5)).setPc (s.pc + 2)) := rfl
theorem exec_storeBCD (x : RegIdx) : exec (.storeBCD x) s = .next
    ((s.storeBytes s.index (bcdDigits (s.reg x))).setPc (s.pc + 2)) := rfl
theorem exec_storeRegisters (x : RegIdx) : exec (.storeRegisters x) s = .next
    ((s.storeBytes s.index (s.regsUpTo x)).setPc (s.pc + 2)) := rfl
theorem exec_loadRegisters (x : RegIdx) : exec (.loadRegisters x) s = .next
    ((State.setRegsFrom 0 (s.mem.readBytes s.index (x.toNat + 1)) s).setPc (s.pc + 2)) := by
  simp [exec, execLoadRegisters]
theorem exec_unrecognised (word : Word) : exec (.unrecognised word) s = .next
    (s.setPc (s.pc + 2)) := rfl

/-- Every instruction completes in every state (40_step_cycle.md R120). -/
theorem exec_completes (i : Instr) : ∃ t, exec i s = .next t := by
  cases i with
  | clear => exact ⟨_, exec_clear s⟩
  | ret => exact ⟨_, exec_ret s⟩
  | jump _ => exact ⟨_, exec_jump s _⟩
  | call _ => exact ⟨_, exec_call s _⟩
  | skipEqImm _ _ => exact ⟨_, exec_skipEqImm s _ _⟩
  | skipNeqImm _ _ => exact ⟨_, exec_skipNeqImm s _ _⟩
  | skipEqReg _ _ => exact ⟨_, exec_skipEqReg s _ _⟩
  | loadImm _ _ => exact ⟨_, exec_loadImm s _ _⟩
  | addImm _ _ => exact ⟨_, exec_addImm s _ _⟩
  | copy _ _ => exact ⟨_, exec_copy s _ _⟩
  | or _ _ => exact ⟨_, exec_or s _ _⟩
  | and _ _ => exact ⟨_, exec_and s _ _⟩
  | xor _ _ => exact ⟨_, exec_xor s _ _⟩
  | addCarry _ _ => exact ⟨_, exec_addCarry s _ _⟩
  | subBorrow _ _ => exact ⟨_, exec_subBorrow s _ _⟩
  | shiftRight _ => exact ⟨_, exec_shiftRight s _⟩
  | revSubBorrow _ _ => exact ⟨_, exec_revSubBorrow s _ _⟩
  | shiftLeft _ => exact ⟨_, exec_shiftLeft s _⟩
  | skipNeqReg _ _ => exact ⟨_, exec_skipNeqReg s _ _⟩
  | setIndex _ => exact ⟨_, exec_setIndex s _⟩
  | jumpIndexed _ => exact ⟨_, exec_jumpIndexed s _⟩
  | random _ _ => exact ⟨_, exec_random s _ _⟩
  | drawSprite _ _ _ => exact ⟨_, exec_drawSprite s _ _ _⟩
  | skipKeyPressed _ => exact ⟨_, exec_skipKeyPressed s _⟩
  | skipKeyNotPressed _ => exact ⟨_, exec_skipKeyNotPressed s _⟩
  | readDelayTimer _ => exact ⟨_, exec_readDelayTimer s _⟩
  | waitForKey _ => exact ⟨_, exec_waitForKey s _⟩
  | setDelayTimer _ => exact ⟨_, exec_setDelayTimer s _⟩
  | setSoundTimer _ => exact ⟨_, exec_setSoundTimer s _⟩
  | addIndex _ => exact ⟨_, exec_addIndex s _⟩
  | setIndexToDigitSprite _ => exact ⟨_, exec_setIndexToDigitSprite s _⟩
  | storeBCD _ => exact ⟨_, exec_storeBCD s _⟩
  | storeRegisters _ => exact ⟨_, exec_storeRegisters s _⟩
  | loadRegisters _ => exact ⟨_, exec_loadRegisters s _⟩
  | unrecognised _ => exact ⟨_, exec_unrecognised s _⟩

/-- A STEP completes in every state. -/
theorem step_completes : ∃ t, step s = .next t := exec_completes s _

end Sys2Proof.Machine
end

