-- ==== Sys2Proof/Laws/PerInstr.lean ====
section
/-! SUPPORT. Facts about every instruction as syntax, one lemma per constructor. Family EncodesItsRow: the canonical word of
an instruction has the fixed bits of its row of R96 (spec/30_encoding.md), whatever its operands. -/

namespace Sys2Proof.Laws.EncodesItsRow

/-- Every row of the opcode map with the instruction's mnemonic matches the instruction's canonical word. -/
def Statement (i : Instr) : Prop := ∀ r ∈ opcodeMap, r.1 = i.mnemonic → encodeWord i &&& r.2.1 = r.2.2

theorem rowOf {i : Instr} {mask matched : Word} (h : opcodeMap.filter (fun r => r.1 == i.mnemonic) = [(i.mnemonic, mask, matched)])
    (hm : encodeWord i &&& mask = matched) : Statement i := by
  intro r hr hi
  have : r ∈ opcodeMap.filter (fun r => r.1 == i.mnemonic) := List.mem_filter.2 ⟨hr, by simpa using hi⟩
  rw [h, List.mem_singleton] at this
  simpa [this] using hm

theorem formA_row (cls : Nibble) (nnn : Addr12) : formA cls nnn &&& 0xF000 = formA cls 0 := by
  simp [and_F000_eq]

theorem formI_row (cls : Nibble) (x : RegIdx) (kk : Byte) : formI cls x kk &&& 0xF000 = formI cls 0 0 := by
  simp [and_F000_eq]

theorem formI_row_low (cls : Nibble) (x : RegIdx) (kk : Byte) : formI cls x kk &&& 0xF0FF = formI cls 0 kk := by
  simp [and_F0FF_eq]

theorem formR_row (cls x y n : Nibble) : formR cls x y n &&& 0xF000 = formR cls 0 0 0 := by
  simp [and_F000_eq]

theorem formR_row_low (cls x y n : Nibble) : formR cls x y n &&& 0xF00F = formR cls 0 0 n := by
  simp [and_F00F_eq]

theorem clear : Statement (.clear) := rowOf rfl (by decide)
theorem ret : Statement (.ret) := rowOf rfl (by decide)
theorem jump (nnn : Addr12) : Statement (.jump nnn) := rowOf rfl (formA_row _ _)
theorem call (nnn : Addr12) : Statement (.call nnn) := rowOf rfl (formA_row _ _)
theorem skipEqImm (x : RegIdx) (kk : Byte) : Statement (.skipEqImm x kk) := rowOf rfl (formI_row _ _ _)
theorem skipNeqImm (x : RegIdx) (kk : Byte) : Statement (.skipNeqImm x kk) := rowOf rfl (formI_row _ _ _)
theorem skipEqReg (x y : RegIdx) : Statement (.skipEqReg x y) := rowOf rfl (formR_row _ _ _ _)
theorem loadImm (x : RegIdx) (kk : Byte) : Statement (.loadImm x kk) := rowOf rfl (formI_row _ _ _)
theorem addImm (x : RegIdx) (kk : Byte) : Statement (.addImm x kk) := rowOf rfl (formI_row _ _ _)
theorem copy (x y : RegIdx) : Statement (.copy x y) := rowOf rfl (formR_row_low _ _ _ _)
theorem or (x y : RegIdx) : Statement (.or x y) := rowOf rfl (formR_row_low _ _ _ _)
theorem and (x y : RegIdx) : Statement (.and x y) := rowOf rfl (formR_row_low _ _ _ _)
theorem xor (x y : RegIdx) : Statement (.xor x y) := rowOf rfl (formR_row_low _ _ _ _)
theorem addCarry (x y : RegIdx) : Statement (.addCarry x y) := rowOf rfl (formR_row_low _ _ _ _)
theorem subBorrow (x y : RegIdx) : Statement (.subBorrow x y) := rowOf rfl (formR_row_low _ _ _ _)
theorem shiftRight (x : RegIdx) : Statement (.shiftRight x) := rowOf rfl (formR_row_low _ _ _ _)
theorem revSubBorrow (x y : RegIdx) : Statement (.revSubBorrow x y) := rowOf rfl (formR_row_low _ _ _ _)
theorem shiftLeft (x : RegIdx) : Statement (.shiftLeft x) := rowOf rfl (formR_row_low _ _ _ _)
theorem skipNeqReg (x y : RegIdx) : Statement (.skipNeqReg x y) := rowOf rfl (formR_row _ _ _ _)
theorem setIndex (nnn : Addr12) : Statement (.setIndex nnn) := rowOf rfl (formA_row _ _)
theorem jumpIndexed (nnn : Addr12) : Statement (.jumpIndexed nnn) := rowOf rfl (formA_row _ _)
theorem random (x : RegIdx) (kk : Byte) : Statement (.random x kk) := rowOf rfl (formI_row _ _ _)
theorem drawSprite (x y : RegIdx) (n : Nibble) : Statement (.drawSprite x y n) := rowOf rfl (formR_row _ _ _ _)
theorem skipKeyPressed (x : RegIdx) : Statement (.skipKeyPressed x) := rowOf rfl (formI_row_low _ _ _)
theorem skipKeyNotPressed (x : RegIdx) : Statement (.skipKeyNotPressed x) := rowOf rfl (formI_row_low _ _ _)
theorem readDelayTimer (x : RegIdx) : Statement (.readDelayTimer x) := rowOf rfl (formI_row_low _ _ _)
theorem waitForKey (x : RegIdx) : Statement (.waitForKey x) := rowOf rfl (formI_row_low _ _ _)
theorem setDelayTimer (x : RegIdx) : Statement (.setDelayTimer x) := rowOf rfl (formI_row_low _ _ _)
theorem setSoundTimer (x : RegIdx) : Statement (.setSoundTimer x) := rowOf rfl (formI_row_low _ _ _)
theorem addIndex (x : RegIdx) : Statement (.addIndex x) := rowOf rfl (formI_row_low _ _ _)
theorem setIndexToDigitSprite (x : RegIdx) : Statement (.setIndexToDigitSprite x) := rowOf rfl (formI_row_low _ _ _)
theorem storeBCD (x : RegIdx) : Statement (.storeBCD x) := rowOf rfl (formI_row_low _ _ _)
theorem storeRegisters (x : RegIdx) : Statement (.storeRegisters x) := rowOf rfl (formI_row_low _ _ _)
theorem loadRegisters (x : RegIdx) : Statement (.loadRegisters x) := rowOf rfl (formI_row_low _ _ _)
theorem unrecognised (word : Word) : Statement (.unrecognised word) := by
  intro r hr hi
  exact absurd hi (by revert r; simp only [Instr.mnemonic]; decide)

end Sys2Proof.Laws.EncodesItsRow
end

