-- ==== Sys2Proof/Laws/Transactions.lean ====
section
/-! SUPPORT. What a transaction answers, said once each (spec/50_interface.md R250). -/

namespace Sys2Proof.Machine

variable (s : State)

/-- A list of transactions goes on from what its first one leaves. -/
theorem runTransactions_cons {tr : Transaction} {s s' : State} {r : Reply} (h : transact tr s = .next (s', r))
    (ts : List Transaction) : runTransactions (tr :: ts) s = runTransactions ts s' := by
  rw [runTransactions, h]

theorem transact_step {s t : State} (h : step s = .next t) : transact .step s = .next (t, .done) := by
  rw [transact, h]

theorem transact_load_ok {image : List Byte} (h : image.length ≤ 3584) :
    transact (.load image) s = .next (s.storeBytes 0x200 image, .ok) := by
  have h' : ¬ image.length > Config.progMax := Nat.not_lt.2 h
  simp only [transact, load, if_neg h']; rfl

theorem transact_load_error {image : List Byte} (h : image.length > 3584) :
    transact (.load image) s = .next (s, .loadError) := by
  have h' : image.length > Config.progMax := h
  simp only [transact, load, if_pos h']

/-- A TICK takes a timer down by one and stops at zero (60_exceptions.md R290). -/
theorem toNat_countDown (t : Byte) : (countDown t).toNat = t.toNat - 1 := by
  unfold countDown
  have h1 : (1 : Byte).toNat = 1 := rfl
  split
  · rw [BitVec.toNat_sub_of_le (BitVec.le_def.2 (by omega))]; omega
  · omega

/-- A key flag reads as the host last wrote it (50_interface.md R255). -/
theorem keyDown_keyWrite (k j : Nibble) (b : Bool) : (keyWrite k b s).keyDown j = if j = k then b else s.keyDown j := by
  simp only [State.keyDown, keyWrite, Vector.getElem_set, BitVec.toNat_inj, eq_comm (a := k)]

end Sys2Proof.Machine
end

