-- ==== Sys2Proof/Tests/Slice0.lean ====
section
/-! SUPPORT. The model's own tests. Expected results are those of spec/95_test_vectors.md (S<n>, T<n>), of the worked
examples of the rules, and of the encodings of spec/30_encoding.md R96, R103 written out bit by bit; then one witness for
the hypotheses of each statement. -/

namespace Sys2Proof.Tests

open Sys2Proof Sys2Proof.Machine

/-- The state after RESET with one word at 0x200 and a set-up. -/
def start (word : Nat) (setUp : State → State) : State := setUp (State.reset.withFetchWord 16 word)

/-- One STEP ends in a next state with the property. -/
def after (s : State) (p : State → Bool) : Bool :=
  match step s with
  | .next t => p t
  | .fault _ => false
  | .refused _ => false

/-- Two bytes decode to an instruction, with nothing left. -/
def decodesTo (first second : Byte) (i : Instr) : Bool :=
  match decodeBytes [first, second] with
  | .ok (j, rest) => j == i && rest == []
  | .error _ => false

/-- The cells that are on. -/
def cellsOn (s : State) (cells : List (Fin 32 × Fin 64)) : Bool := cells.all fun rc => s.pixel rc.1 rc.2 == 0xFF

/-- How many cells are on. -/
def countOn (s : State) : Nat := (frameBufferView s).countP (· == 0xFF)

/-- One cell turned on. -/
def turnOn (r : Fin 32) (c : Fin 64) (s : State) : State := s.setFb (s.fb.set r (s.fb[r].set c 0xFF))

/-! ## WellFormed: the one check refuses each ill-formed term -/

theorem test_wellFormed_refuses_clear : (Instr.unrecognised 0x00E0).wellFormed = false := by decide
theorem test_wellFormed_refuses_ret : (Instr.unrecognised 0x00EE).wellFormed = false := by decide
theorem test_wellFormed_refuses_jump : (Instr.unrecognised 0x1200).wellFormed = false := by decide
theorem test_wellFormed_refuses_addCarry : (Instr.unrecognised 0x8AB4).wellFormed = false := by decide
theorem test_wellFormed_refuses_skipNeqReg : (Instr.unrecognised 0x9AB7).wellFormed = false := by decide
theorem test_wellFormed_refuses_skipKeyPressed : (Instr.unrecognised 0xE39E).wellFormed = false := by decide
theorem test_wellFormed_refuses_loadRegisters : (Instr.unrecognised 0xF265).wellFormed = false := by decide
theorem test_wellFormed_refuses_aliasOfClear : (Instr.unrecognised 0x01E0).wellFormed = false := by decide
theorem test_wellFormed_accepts_0000 : (Instr.unrecognised 0x0000).wellFormed = true := by decide
theorem test_wellFormed_accepts_8128 : (Instr.unrecognised 0x8128).wellFormed = true := by decide
theorem test_wellFormed_accepts_E39F : (Instr.unrecognised 0xE39F).wellFormed = true := by decide
theorem test_wellFormed_accepts_F0FF : (Instr.unrecognised 0xF0FF).wellFormed = true := by decide

/-! ## Decoding: words written out from R96's encodings, every constructor (R103 and 95_test_vectors.md 2.1) -/

theorem test_decode_00E0 : decodesTo 0b00000000 0b11100000 (.clear) = true := by decide
theorem test_decode_0AE0 : decodesTo 0b00001010 0b11100000 (.clear) = true := by decide
theorem test_decode_00EE : decodesTo 0b00000000 0b11101110 (.ret) = true := by decide
theorem test_decode_00E1 : decodesTo 0b00000000 0b11100001 (.unrecognised 0x00E1) = true := by decide
theorem test_decode_000E : decodesTo 0b00000000 0b00001110 (.unrecognised 0x000E) = true := by decide
theorem test_decode_0230 : decodesTo 0b00000010 0b00110000 (.unrecognised 0x0230) = true := by decide
theorem test_decode_0000 : decodesTo 0b00000000 0b00000000 (.unrecognised 0x0000) = true := by decide
theorem test_decode_1200 : decodesTo 0b00010010 0b00000000 (.jump 0x200) = true := by decide
theorem test_decode_1FFF : decodesTo 0b00011111 0b11111111 (.jump 0xFFF) = true := by decide
theorem test_decode_2ABC : decodesTo 0b00101010 0b10111100 (.call 0xABC) = true := by decide
theorem test_decode_3F01 : decodesTo 0b00111111 0b00000001 (.skipEqImm 0xF 0x01) = true := by decide
theorem test_decode_4A42 : decodesTo 0b01001010 0b01000010 (.skipNeqImm 0xA 0x42) = true := by decide
theorem test_decode_5AB3 : decodesTo 0b01011010 0b10110011 (.skipEqReg 0xA 0xB) = true := by decide
theorem test_decode_65FF : decodesTo 0b01100101 0b11111111 (.loadImm 0x5 0xFF) = true := by decide
theorem test_decode_7120 : decodesTo 0b01110001 0b00100000 (.addImm 0x1 0x20) = true := by decide
theorem test_decode_8120 : decodesTo 0b10000001 0b00100000 (.copy 0x1 0x2) = true := by decide
theorem test_decode_8AB1 : decodesTo 0b10001010 0b10110001 (.or 0xA 0xB) = true := by decide
theorem test_decode_8AB2 : decodesTo 0b10001010 0b10110010 (.and 0xA 0xB) = true := by decide
theorem test_decode_8AB3 : decodesTo 0b10001010 0b10110011 (.xor 0xA 0xB) = true := by decide
theorem test_decode_83A4 : decodesTo 0b10000011 0b10100100 (.addCarry 0x3 0xA) = true := by decide
theorem test_decode_8125 : decodesTo 0b10000001 0b00100101 (.subBorrow 0x1 0x2) = true := by decide
theorem test_decode_8AB6 : decodesTo 0b10001010 0b10110110 (.shiftRight 0xA) = true := by decide
theorem test_decode_8127 : decodesTo 0b10000001 0b00100111 (.revSubBorrow 0x1 0x2) = true := by decide
theorem test_decode_812E : decodesTo 0b10000001 0b00101110 (.shiftLeft 0x1) = true := by decide
theorem test_decode_8128 : decodesTo 0b10000001 0b00101000 (.unrecognised 0x8128) = true := by decide
theorem test_decode_8ABF : decodesTo 0b10001010 0b10111111 (.unrecognised 0x8ABF) = true := by decide
theorem test_decode_9AB7 : decodesTo 0b10011010 0b10110111 (.skipNeqReg 0xA 0xB) = true := by decide
theorem test_decode_A2F0 : decodesTo 0b10100010 0b11110000 (.setIndex 0x2F0) = true := by decide
theorem test_decode_BFFF : decodesTo 0b10111111 0b11111111 (.jumpIndexed 0xFFF) = true := by decide
theorem test_decode_C10F : decodesTo 0b11000001 0b00001111 (.random 0x1 0x0F) = true := by decide
theorem test_decode_D015 : decodesTo 0b11010000 0b00010101 (.drawSprite 0x0 0x1 0x5) = true := by decide
theorem test_decode_D000 : decodesTo 0b11010000 0b00000000 (.drawSprite 0x0 0x0 0x0) = true := by decide
theorem test_decode_E39E : decodesTo 0b11100011 0b10011110 (.skipKeyPressed 0x3) = true := by decide
theorem test_decode_E2A1 : decodesTo 0b11100010 0b10100001 (.skipKeyNotPressed 0x2) = true := by decide
theorem test_decode_E39F : decodesTo 0b11100011 0b10011111 (.unrecognised 0xE39F) = true := by decide
theorem test_decode_E001 : decodesTo 0b11100000 0b00000001 (.unrecognised 0xE001) = true := by decide
theorem test_decode_F507 : decodesTo 0b11110101 0b00000111 (.readDelayTimer 0x5) = true := by decide
theorem test_decode_F30A : decodesTo 0b11110011 0b00001010 (.waitForKey 0x3) = true := by decide
theorem test_decode_F515 : decodesTo 0b11110101 0b00010101 (.setDelayTimer 0x5) = true := by decide
theorem test_decode_F518 : decodesTo 0b11110101 0b00011000 (.setSoundTimer 0x5) = true := by decide
theorem test_decode_F21E : decodesTo 0b11110010 0b00011110 (.addIndex 0x2) = true := by decide
theorem test_decode_F429 : decodesTo 0b11110100 0b00101001 (.setIndexToDigitSprite 0x4) = true := by decide
theorem test_decode_F233 : decodesTo 0b11110010 0b00110011 (.storeBCD 0x2) = true := by decide
theorem test_decode_F255 : decodesTo 0b11110010 0b01010101 (.storeRegisters 0x2) = true := by decide
theorem test_decode_FF65 : decodesTo 0b11111111 0b01100101 (.loadRegisters 0xF) = true := by decide
theorem test_decode_F075 : decodesTo 0b11110000 0b01110101 (.unrecognised 0xF075) = true := by decide
theorem test_decode_short :
    (match decodeBytes [0x12] with | .ok _ => false | .error r => r == .truncated) = true := by decide
theorem test_decodeTableWord_jump : decodeTableWord 16 0x1ABC = some (.jump 0xABC) := by decide
theorem test_decodeTableWord_too_long : decodeTableWord 32 0x1ABC = none := by decide
theorem test_encode_addCarry : encode (.addCarry 0x3 0xA) = [0x83, 0xA4] := by decide

/-! ## One step of each instruction (95_test_vectors.md) -/

theorem test_clear_T100 : after (start 0x00E0 fun s => turnOn 5 7 (s.setReg 0xF 0x77))
    (fun t => countOn t == 0 && t.reg 0xF == 0x77 && t.pc == 0x0202) = true := by decide +kernel
theorem test_return_T5 : after ((start 0x00EE fun s => s).storeBytes 0x300 [0x00, 0xEE] |>.setPc 0x0204 |>.push 0x0204 |>.setPc 0x0300)
    (fun t => t.sp == 0 && t.pc == 0x0206 && t.stackAt 0 == 0x0204) = true := by decide
theorem test_return_T6_underflow : after (start 0x00EE fun s => s)
    (fun t => t.sp == 15 && t.pc == 0x0002) = true := by decide
theorem test_jump_T1 : after (start 0x1ABC fun s => s)
    (fun t => t.pc == 0x0ABC) = true := by decide
theorem test_call_T4 : after (start 0x2300 fun s => s)
    (fun t => t.stackAt 0 == 0x0200 && t.sp == 1 && t.pc == 0x0300) = true := by decide
theorem test_call_T8_wraps : after (start 0x2300 fun s => { s with sp := 15 })
    (fun t => t.stackAt 15 == 0x0200 && t.sp == 0 && t.pc == 0x0300) = true := by decide
theorem test_skipEqImm_T9 : after (start 0x3A42 fun s => s.setReg 0xA 0x42)
    (fun t => t.pc == 0x0204) = true := by decide
theorem test_skipEqImm_T10 : after (start 0x3A42 fun s => s.setReg 0xA 0x43)
    (fun t => t.pc == 0x0202) = true := by decide
theorem test_skipNeqImm_T11 : after (start 0x4A42 fun s => s.setReg 0xA 0x42)
    (fun t => t.pc == 0x0202) = true := by decide
theorem test_skipNeqImm_T12 : after (start 0x4A42 fun s => s.setReg 0xA 0x43)
    (fun t => t.pc == 0x0204) = true := by decide
theorem test_skipEqReg_T16_alias : after (start 0x5123 fun s => (s.setReg 0x1 0x07).setReg 0x2 0x07)
    (fun t => t.pc == 0x0204) = true := by decide
theorem test_skipEqReg_T15 : after (start 0x5120 fun s => (s.setReg 0x1 0x07).setReg 0x2 0x08)
    (fun t => t.pc == 0x0202) = true := by decide
theorem test_loadImm_T31 : after (start 0x6F55 fun s => s.setReg 0xF 0x77)
    (fun t => t.reg 0xF == 0x55 && t.pc == 0x0202) = true := by decide
theorem test_addImm_T32_no_carry : after (start 0x7A01 fun s => (s.setReg 0xA 0xFF).setReg 0xF 0x77)
    (fun t => t.reg 0xA == 0x00 && t.reg 0xF == 0x77) = true := by decide
theorem test_addImm_T34 : after (start 0x7F02 fun s => s.setReg 0xF 0xFF)
    (fun t => t.reg 0xF == 0x01) = true := by decide
theorem test_copy_T35 : after (start 0x8AB0 fun s => (s.setReg 0xB 0x5C).setReg 0xF 0x77)
    (fun t => t.reg 0xA == 0x5C && t.reg 0xF == 0x77) = true := by decide
theorem test_or_T36 : after (start 0x8AB1 fun s => ((s.setReg 0xA 0xF0).setReg 0xB 0x3C).setReg 0xF 0x77)
    (fun t => t.reg 0xA == 0xFC && t.reg 0xF == 0x77) = true := by decide
theorem test_and_T37 : after (start 0x8AB2 fun s => ((s.setReg 0xA 0xF0).setReg 0xB 0x3C).setReg 0xF 0x77)
    (fun t => t.reg 0xA == 0x30 && t.reg 0xF == 0x77) = true := by decide
theorem test_xor_T38 : after (start 0x8AB3 fun s => ((s.setReg 0xA 0xF0).setReg 0xB 0x3C).setReg 0xF 0x77)
    (fun t => t.reg 0xA == 0xCC && t.reg 0xF == 0x77) = true := by decide
theorem test_addCarry_S1 : after (start 0x8124 fun s => (s.setReg 0x1 0xFF).setReg 0x2 0x01)
    (fun t => t.reg 0x1 == 0x00 && t.reg 0xF == 0x01) = true := by decide
theorem test_addCarry_T49_old_VF : after (start 0x82F4 fun s => (s.setReg 0xF 0x01).setReg 0x2 0xFF)
    (fun t => t.reg 0x2 == 0x00 && t.reg 0xF == 0x01) = true := by decide
theorem test_subBorrow_S2 : after (start 0x8125 fun s => (s.setReg 0x1 0x10).setReg 0x2 0x20)
    (fun t => t.reg 0x1 == 0xF0 && t.reg 0xF == 0x00) = true := by decide
theorem test_subBorrow_T50_flag_last : after (start 0x8F15 fun s => (s.setReg 0xF 0x05).setReg 0x1 0x03)
    (fun t => t.reg 0xF == 0x01) = true := by decide
theorem test_shiftRight_T46 : after (start 0x8AB6 fun s => (s.setReg 0xA 0x01).setReg 0xB 0x44)
    (fun t => t.reg 0xA == 0x00 && t.reg 0xB == 0x44 && t.reg 0xF == 0x01) = true := by decide
theorem test_shiftRight_T55_flag_last : after (start 0x8F06 fun s => s.setReg 0xF 0x02)
    (fun t => t.reg 0xF == 0x00) = true := by decide
theorem test_revSubBorrow_T44 : after (start 0x8127 fun s => (s.setReg 0x1 0x30).setReg 0x2 0x10)
    (fun t => t.reg 0x1 == 0xE0 && t.reg 0xF == 0x00) = true := by decide
theorem test_revSubBorrow_T53 : after (start 0x81F7 fun s => (s.setReg 0x1 0x05).setReg 0xF 0x09)
    (fun t => t.reg 0x1 == 0x04 && t.reg 0xF == 0x01) = true := by decide
theorem test_shiftLeft_S3 : after (start 0x810E fun s => s.setReg 0x1 0x81)
    (fun t => t.reg 0x1 == 0x02 && t.reg 0xF == 0x01) = true := by decide
theorem test_shiftLeft_T57_flag_last : after (start 0x8F0E fun s => s.setReg 0xF 0x7F)
    (fun t => t.reg 0xF == 0x00) = true := by decide
theorem test_skipNeqReg_T18 : after (start 0x9120 fun s => (s.setReg 0x1 0x07).setReg 0x2 0x08)
    (fun t => t.pc == 0x0204) = true := by decide
theorem test_skipNeqReg_T19_alias : after (start 0x9123 fun s => (s.setReg 0x1 0x07).setReg 0x2 0x07)
    (fun t => t.pc == 0x0202) = true := by decide
theorem test_setIndex_T70 : after (start 0xAFFF fun s => s)
    (fun t => t.index == 0x0FFF) = true := by decide
theorem test_jumpIndexed_T22 : after (start 0xBFFF fun s => s.setReg 0x0 0x03)
    (fun t => t.pc == 0x1002) = true := by decide
theorem test_random_T135 : (randomWith 0xB7 0xA 0x0F State.reset).reg 0xA = 0x07 := by decide
theorem test_random_draws_once : (randomWith 0xB7 0xA 0xFF State.reset).draws = 1 ∧
    (randomWith 0xB7 0xA 0xFF State.reset).reg 0xA = 0xB7 := by decide
theorem test_drawSprite_T105_collision : after (start 0xD001 fun s => (turnOn 0 0 s).setIndexReg 0x300 |>.storeBytes 0x300 [0xC0])
    (fun t => !cellsOn t [(0, 0)] && cellsOn t [(0, 1)] && countOn t == 1 && t.reg 0xF == 1 && t.index == 0x300) = true := by decide +kernel
theorem test_drawSprite_S7_wraps : after (start 0xD011 fun s => ((s.setReg 0 0x3F).setReg 1 0x1F).setIndexReg 0x300 |>.storeBytes 0x300 [0xC0])
    (fun t => cellsOn t [(31, 63), (31, 0)] && countOn t == 2 && t.reg 0xF == 0) = true := by decide +kernel
theorem test_skipKeyPressed_T122 : after (start 0xE29E fun s => keyWrite 5 true (s.setReg 2 0x15))
    (fun t => t.pc == 0x0204) = true := by decide
theorem test_skipKeyPressed_T125 : after (start 0xE29E fun s => lastKeyWrite 5 (s.setReg 2 0x05))
    (fun t => t.pc == 0x0202) = true := by decide
theorem test_skipKeyNotPressed_T123 : after (start 0xE2A1 fun s => s.setReg 2 0x05)
    (fun t => t.pc == 0x0204) = true := by decide
theorem test_skipKeyNotPressed_T124 : after (start 0xE2A1 fun s => keyWrite 5 true (s.setReg 2 0x05))
    (fun t => t.pc == 0x0202) = true := by decide
theorem test_readDelayTimer_T132 : after (start 0xF507 fun s => s.setDt 0x1E)
    (fun t => t.reg 5 == 0x1E && t.dt == 0x1E) = true := by decide
theorem test_waitForKey_T127 : after (start 0xF30A fun s => lastKeyWrite 0x0F s)
    (fun t => t.reg 3 == 0x0F && t.pc == 0x0202 && t.lastKey == 0x0F) = true := by decide
theorem test_waitForKey_T129_no_key : after (start 0xF30A fun s => lastKeyWrite 0x11 s)
    (fun t => t == lastKeyWrite 0x11 (start 0xF30A fun s => s)) = true := by decide
theorem test_setDelayTimer_T133 : after (start 0xF515 fun s => s.setReg 5 0x3C)
    (fun t => t.dt == 0x3C && t.st == 0x00) = true := by decide
theorem test_setSoundTimer_T134 : after (start 0xF518 fun s => s.setReg 5 0x02)
    (fun t => t.st == 0x02 && t.dt == 0x00 && soundOn t) = true := by decide
theorem test_addIndex_T72_no_flag : after (start 0xF21E fun s => ((s.setReg 2 0x01).setReg 0xF 0x77).setIndexReg 0x0FFF)
    (fun t => t.index == 0x1000 && t.reg 0xF == 0x77) = true := by decide
theorem test_addIndex_T73_wraps : after (start 0xFA1E fun s => (s.setReg 0xA 0x20).setIndexReg 0xFFF0)
    (fun t => t.index == 0x0010) = true := by decide
theorem test_setIndexToDigitSprite_T74 : after (start 0xFA29 fun s => s.setReg 0xA 0x0A)
    (fun t => t.index == 0x0032) = true := by decide
theorem test_setIndexToDigitSprite_T78_no_mask : after (start 0xFA29 fun s => s.setReg 0xA 0xFF)
    (fun t => t.index == 0x04FB) = true := by decide
theorem test_storeBCD_T81 : after (start 0xF333 fun s => (s.setReg 3 0x9C).setIndexReg 0x300)
    (fun t => t.byteAt 0x300 == 1 && t.byteAt 0x301 == 5 && t.byteAt 0x302 == 6 && t.index == 0x300) = true := by decide
theorem test_storeBCD_T82_wraps : after (start 0xFA33 fun s => (s.setReg 0xA 0x7B).setIndexReg 0xFFE)
    (fun t => t.byteAt 0xFFE == 1 && t.byteAt 0xFFF == 2 && t.byteAt 0x000 == 3) = true := by decide
theorem test_storeRegisters_T83 : after (start 0xF255 fun s => (((s.setReg 0 0x11).setReg 1 0x22).setReg 2 0x33).setIndexReg 0x400)
    (fun t => t.mem.readBytes 0x400 4 == [0x11, 0x22, 0x33, 0x00] && t.index == 0x400) = true := by decide
theorem test_storeRegisters_T85_wraps : after (start 0xF155 fun s => ((s.setReg 0 0xAA).setReg 1 0xBB).setIndexReg 0xFFF)
    (fun t => t.byteAt 0xFFF == 0xAA && t.byteAt 0x000 == 0xBB) = true := by decide
theorem test_loadRegisters_T86 : after (start 0xF465 fun s => (s.setReg 5 0x99).setIndexReg 0x005)
    (fun t => (List.range 6).map (fun k => t.reg (BitVec.ofNat 4 k)) == [0x20, 0x60, 0x20, 0x20, 0x70, 0x99] && t.index == 5) = true := by decide
theorem test_loadRegisters_T88_wraps : after (start 0xF165 fun s => s.setIndexReg 0x0FFF |>.storeBytes 0xFFF [0x5A])
    (fun t => t.reg 0 == 0x5A && t.reg 1 == 0xF0) = true := by decide
theorem test_unrecognised_T61 : after (start 0x812F fun s => (s.setReg 0x1 0x55).setReg 0x2 0xAA)
    (fun t => t == ((start 0x812F fun s => s).setReg 1 0x55 |>.setReg 2 0xAA |>.setPc 0x0202)) = true := by decide
theorem test_unrecognised_not_a_skip : after (start 0xE39F fun s => keyWrite 3 true (s.setReg 3 3))
    (fun t => t.pc == 0x0202) = true := by decide
theorem test_fetch_T26_wraps : after ((State.reset.storeBytes 0xFFF [0x6A]).setPc 0x0FFF)
    (fun t => t.reg 0xA == 0xF0 && t.pc == 0x1001) = true := by decide
theorem test_store_T89_runs_next : after (start 0xF155 fun s => ((s.setReg 0 0x12).setReg 1 0x06).setIndexReg 0x202)
    (fun t => t.nextInstr == .jump 0x206) = true := by decide

/-! ## Reset and transactions (95_test_vectors.md 2.8) -/

theorem test_reset_memory_T151 : [0x000, 0x004, 0x005, 0x04B, 0x04F, 0x050, 0x1FF, 0x200].map State.reset.byteAt =
    [0xF0, 0xF0, 0x20, 0xF0, 0x80, 0x00, 0x00, 0x00] := by decide
theorem test_font_has_80_bytes : Config.font.length = 80 := by decide
theorem test_load_T155 : ((load [0xAA, 0xBB] (load [0x11, 0x22, 0x33, 0x44] State.reset).1).1.mem.readBytes 0x200 4) =
    [0xAA, 0xBB, 0x33, 0x44] := by decide
theorem test_tick_T158 : (tick ((State.reset.setDt 1).setSt 1)).dt = 0 ∧ soundOn (tick ((State.reset.setDt 1).setSt 1)) = false := by
  decide
theorem test_tick_T159_stays_zero : tick State.reset = State.reset := by decide
theorem test_tick_T160 : (tick ((State.reset.setDt 0xFF).setSt 0x80)).dt = 0xFE ∧
    (tick ((State.reset.setDt 0xFF).setSt 0x80)).st = 0x7F := by decide
theorem test_keyWrite_T162 : (keyWrite 5 true State.reset).keyDown 5 = true ∧ (keyWrite 5 true State.reset).lastKey = 0x10 := by
  decide
theorem test_lastKeyWrite_T163 : (lastKeyWrite 7 State.reset).lastKey = 7 ∧ (lastKeyWrite 7 State.reset).key = State.reset.key := by
  decide
theorem test_memory_write_default_is_unlisted : (State.reset.storeBytes 0x300 [0x55]).storeBytes 0x300 [0x00] = State.reset := by
  decide

/-! ## Witnesses: for each statement with hypotheses, a state and operands that meet them all -/

/-- A draw of one row of eight set bits at (x0, y0), from V0 and V1. -/
def drawStart (x0 y0 row : Byte) : State := (((State.reset.setReg 0 x0).setReg 1 y0).setIndexReg 0x300).storeBytes 0x300 [row]

theorem wf_start : (start 0x1300 fun s => s).mem.wf := by decide

theorem inv_drawStart : (drawStart 63 31 0xFF).Inv :=
  ⟨by decide, fun r c => .inl (by simp [drawStart, State.reset, State.pixel])⟩

theorem witness_DecodeInvertsEncode : (Instr.unrecognised 0xF0FF).wellFormed = true ∧
    (Instr.drawSprite 0xF 0xF 0xF).wellFormed = true := by decide

theorem witness_UnrecognisedWordsAreTheTabulatedNoOps :
    State.reset.nextInstr = .unrecognised (State.reset.wordAt State.reset.pc) := by decide

theorem witness_StepRunsTheDecodedInstruction :
    decodeBytes [(start 0x83A4 fun s => s).byteAt 0x200, (start 0x83A4 fun s => s).byteAt 0x201] =
      .ok (.addCarry 0x3 0xA, []) := by rfl

/-- At the wrap: the second byte of the word at 0xFFF is the byte at 0x000 (T26). -/
theorem witness_FetchIsBigEndian : (0x6AF0 : Word).extractLsb' 8 8 = ((State.reset.storeBytes 0xFFF [0x6A]).setPc 0xFFF).byteAt 0xFFF ∧
    (0x6AF0 : Word).extractLsb' 0 8 = ((State.reset.storeBytes 0xFFF [0x6A]).setPc 0xFFF).byteAt (0xFFF + 1) := by decide

theorem witness_OnlyLoadReportsAnError :
    transact (.load (List.replicate 3585 0x00)) State.reset = .next (State.reset, .loadError) := by
  simp only [transact, load, List.length_replicate]; rfl

theorem witness_JumpIsExact : (start 0x1300 fun s => s).nextInstr = .jump 0x300 := by decide

/-- The program of S10, `60 01 61 02 80 14`. -/
def straightLine : State := State.reset.storeBytes 0x200 [0x60, 0x01, 0x61, 0x02, 0x80, 0x14]

theorem witness_StraightLine : runTransactions [.reset, .load [0x60, 0x01, 0x61, 0x02, 0x80, 0x14]] State.reset = .next straightLine ∧
    ∀ j < 3, ∀ u, Sys2Proof.core.run j straightLine = .next u → ¬ u.nextInstr.divertsControl u := by
  refine ⟨rfl, fun j hj u hu => ?_⟩
  rcases (by omega : j = 0 ∨ j = 1 ∨ j = 2) with rfl | rfl | rfl
  · cases hu; exact id
  · cases (show Host.Outcome.next _ = Host.Outcome.next u from hu); exact id
  · cases (show Host.Outcome.next _ = Host.Outcome.next u from hu); exact id

theorem witness_StoresAreSeenByTheNextFetch : (start 0xF155 fun s => s.setIndexReg 0x202).mem.wf ∧
    (start 0xF155 fun s => s.setIndexReg 0x202).nextInstr = .storeRegisters 1 ∧ (1 : RegIdx).toNat ≥ 1 ∧
    (start 0xF155 fun s => s.setIndexReg 0x202).index = (start 0xF155 fun s => s.setIndexReg 0x202).pc + 2 := by decide

theorem witness_StepKeepsInvariant : (drawStart 63 31 0xFF).Inv ∧ ∃ t, step (drawStart 63 31 0xFF) = .next t :=
  ⟨inv_drawStart, step_completes _⟩

theorem witness_TransactionsKeepInvariant : (drawStart 63 31 0xFF).Inv ∧
    ∃ t, runTransactions [.tick, .keyWrite 5 true, .load [0x12, 0x00], .reset, .readFrameBuffer] (drawStart 63 31 0xFF) = .next t :=
  ⟨inv_drawStart, _, rfl⟩

theorem witness_StatesAreDeterminedByTheirPlaces :
    State.reset.mem.wf ∧ ((State.reset.storeBytes 0x300 [0x55]).storeBytes 0x300 [0x00]).mem.wf ∧
    ∀ l, State.reset.get l = ((State.reset.storeBytes 0x300 [0x55]).storeBytes 0x300 [0x00]).get l := by
  refine ⟨by decide, by decide, fun l => ?_⟩
  rw [test_memory_write_default_is_unlisted]

/-- Two states that agree on what AddImm V3 reads and on nothing else. -/
theorem witness_ResultsDependOnlyOnTheReadSet :
    let s₁ := State.reset.setReg 3 7
    let s₂ := (((State.reset.setReg 3 7).setReg 4 9).setDt 5).setIndexReg 0x123
    s₁.mem.wf ∧ s₂.mem.wf ∧ (∃ t, exec (.addImm 3 1) s₁ = .next t) ∧ (∃ t, exec (.addImm 3 1) s₂ = .next t) ∧
    (∀ l, Instr.reads s₁ (.addImm 3 1) l → s₁.get l = s₂.get l) ∧ Instr.writes s₁ (.addImm 3 1) (.reg 3) := by
  refine ⟨by decide, by decide, ⟨_, rfl⟩, ⟨_, rfl⟩, fun l hl => ?_, .inr rfl⟩
  rcases hl with rfl | rfl <;> rfl

theorem witness_StepChangesEachItem : ∃ t, step (start 0x2300 fun s => s) = .next t ∧ t.sp ≠ 0 :=
  ⟨_, rfl, by decide⟩

theorem witness_FlagIsZeroOrOne : (∃ t, exec (.addCarry 0xF 0xF) State.reset = .next t) ∧
    "AddCarry" ∈ ["AddCarry", "SubBorrow", "ShiftRight", "RevSubBorrow", "ShiftLeft", "DrawSprite"] ∧
    (∃ t, exec (.loadImm 0xF 0x55) State.reset = .next t) ∧
    "LoadImm" ∉ ["AddCarry", "SubBorrow", "ShiftRight", "RevSubBorrow", "ShiftLeft", "DrawSprite"] :=
  ⟨⟨_, rfl⟩, by decide, ⟨_, rfl⟩, by decide⟩

theorem witness_UnrecognisedWordIsANoOp : ∀ r ∈ opcodeMap,
    (start 0x81F8 fun s => s).wordAt (start 0x81F8 fun s => s).pc &&& r.2.1 ≠ r.2.2 := by decide

/-- The hypothesis of each use of Encodes, at a word with every operand bit set. -/
theorem witness_Encodes_class : ∀ c ∈ [(0x1 : Nibble), 0x3, 0x4, 0x5, 0x6, 0x7, 0x9, 0xA, 0xB],
    formI c 0xF 0xFF &&& 0xF000 = formI c 0x0 0x00 := by decide
theorem witness_Encodes_copy : (0x8FF0 : Word) &&& 0xF00F = 0x8000 := by decide
theorem witness_Encodes_clear : (0x0FE0 : Word) &&& 0xF0FF = 0x00E0 := by decide
theorem witness_Encodes_classF : ∀ kk ∈ [(0x07 : Byte), 0x0A, 0x15, 0x18, 0x29],
    formI 0xF 0xF kk &&& 0xF0FF = formI 0xF 0x0 kk := by decide

theorem witness_NestedCallsReturn : (∃ t w, exec (.call 0x300) State.reset = .next t ∧ t.sp = t.sp ∧
    t.stackAt 0 = t.stackAt 0 ∧ exec .ret t = .next w) ∧
    List.replicate 16 (0x300 : Addr12) ≠ [] ∧ (List.replicate 16 (0x300 : Addr12)).length ≤ 16 :=
  ⟨⟨_, _, rfl, rfl, rfl, rfl⟩, by decide, by decide⟩

/-- x other than 0xF, and x = 0xF, for the clauses that say the result of a flag-writing instruction. -/
theorem witness_AddAndSubtract_and_Shifts : (0xE : RegIdx) ≠ 0xF ∧
    (∃ t, exec (.subBorrow 0xE 0xF) State.reset = .next t) ∧ ∃ t, exec (.shiftLeft 0xF) State.reset = .next t :=
  ⟨by decide, ⟨_, rfl⟩, ⟨_, rfl⟩⟩

/-- At the wrap of the address space, canonical memory (StoreBcdWritesThreeDigits, StoreRegistersWritesV0ToVx). -/
theorem witness_Stores : (State.reset.setIndexReg 0x0FFF).mem.wf ∧ (0xF : RegIdx).toNat ≤ (0xF : RegIdx).toNat := by decide

theorem witness_LoadRegisters : (0x0 : RegIdx).toNat ≤ (0x0 : RegIdx).toNat := by decide

theorem witness_StoreThenLoad : (State.reset.setIndexReg 0x0FFF).mem.wf ∧
    ∃ t w, exec (.storeRegisters 0xF) (State.reset.setIndexReg 0x0FFF) = .next t ∧
      (t.setReg 0 0x99).mem = t.mem ∧ (t.setReg 0 0x99).index = (State.reset.setIndexReg 0x0FFF).index ∧
      exec (.loadRegisters 0xF) (t.setReg 0 0x99) = .next w :=
  ⟨by decide, _, _, rfl, rfl, rfl, rfl⟩

/-- A cell under the sprite that is on, and a sprite with no cell under it that is on. -/
theorem witness_DrawSprite : (turnOn 31 0 (drawStart 63 31 0xFF)).underSprite 0 1 1 31 0 ∧
    (turnOn 31 0 (drawStart 63 31 0xFF)).pixel 31 0 = 0xFF ∧
    ¬ ∃ r c, (drawStart 63 31 0xFF).underSprite 0 1 0 r c ∧ (drawStart 63 31 0xFF).pixel r c = 0xFF := by
  refine ⟨⟨0, by decide, 1, by decide, by decide, by decide, by decide⟩, by decide, ?_⟩
  rintro ⟨r, c, ⟨k, hk, -⟩, -⟩
  exact absurd hk (by simp)

theorem witness_CollisionFlag : (drawStart 63 31 0xFF).Inv ∧ (0 : RegIdx) ≠ 0xF ∧ (1 : RegIdx) ≠ 0xF ∧
    (∀ r c, (drawStart 63 31 0xFF).pixel r c = 0x00) ∧
    (drawStart 63 31 0xFF).byteAt (drawStart 63 31 0xFF).index = 0xFF ∧
    ∃ t u, exec (.drawSprite 0 1 1) (drawStart 63 31 0xFF) = .next t ∧ exec (.drawSprite 0 1 1) t = .next u :=
  ⟨inv_drawStart, by decide, by decide, fun r c => by simp [drawStart, State.reset, State.pixel, Config.pixOff], by decide,
    _, _, rfl, rfl⟩

theorem witness_DrawingTwice : (0 : RegIdx) ≠ 0xF ∧ (1 : RegIdx) ≠ 0xF ∧
    ∃ t u, exec (.drawSprite 0 1 0xF) (drawStart 255 255 0xFF) = .next t ∧ exec (.drawSprite 0 1 0xF) t = .next u :=
  ⟨by decide, by decide, _, _, rfl, rfl⟩

/-- Origins (65, 33) and (1, 1), as T106; then the corner (63, 31). -/
theorem witness_OriginWraps :
    (drawStart 1 1 0xC0).fb = (drawStart 65 33 0xC0).fb ∧ (drawStart 1 1 0xC0).mem = (drawStart 65 33 0xC0).mem ∧
    (drawStart 1 1 0xC0).index = (drawStart 65 33 0xC0).index ∧
    ((drawStart 1 1 0xC0).reg 0).toNat % 64 = ((drawStart 65 33 0xC0).reg 0).toNat % 64 ∧
    ((drawStart 1 1 0xC0).reg 1).toNat % 32 = ((drawStart 65 33 0xC0).reg 1).toNat % 32 ∧
    (∃ t t', exec (.drawSprite 0 1 1) (drawStart 65 33 0xC0) = .next t ∧ exec (.drawSprite 0 1 1) (drawStart 1 1 0xC0) = .next t') ∧
    ((drawStart 63 31 0xC0).reg 0).toNat = 63 ∧ ((drawStart 63 31 0xC0).reg 1).toNat = 31 ∧
    (∃ t, exec (.drawSprite 0 1 1) (drawStart 63 31 0xC0) = .next t) ∧
    ((drawStart 63 31 0xC0).byteAt (drawStart 63 31 0xC0).index).getLsbD 7 = true ∧
    ((drawStart 63 31 0xC0).byteAt (drawStart 63 31 0xC0).index).getLsbD 6 = true :=
  ⟨rfl, rfl, rfl, by decide, by decide, ⟨_, _, rfl, rfl⟩, by decide, by decide, ⟨_, rfl⟩, by decide, by decide⟩

theorem witness_KeySkips : (0xF : Nibble).toNat = ((State.reset.setReg 2 0xFF).reg 2).toNat % 16 := by decide

/-- The last key and the first value that is none. -/
theorem witness_WaitForKey : (lastKeyWrite 0x0F State.reset).lastKey.toNat ≤ 15 ∧
    (lastKeyWrite 0x10 State.reset).lastKey.toNat ≥ 16 := by decide

theorem witness_WaitingPolls : (start 0xF30A fun s => s).nextInstr = .waitForKey 3 ∧
    (start 0xF30A fun s => s).lastKey.toNat ≥ 16 ∧ (0x0F : Byte).toNat ≤ 15 := by decide

theorem witness_Random_bit_outside_the_mask : (0x0F : Byte).getLsbD 4 = false := by decide

/-- The longest image that fits, its last byte, and one byte more. -/
theorem witness_Load : State.reset.mem.wf ∧ (List.replicate 3584 (0x00 : Byte)).length ≤ 3584 ∧
    3583 < (List.replicate 3584 (0x00 : Byte)).length ∧ (List.replicate 3585 (0x00 : Byte)).length > 3584 := by
  refine ⟨by decide, ?_, ?_, ?_⟩ <;> rw [List.length_replicate] <;> omega

theorem witness_KeyWrites_step : ∃ t, step (keyWrite 5 true State.reset) = .next t := ⟨_, rfl⟩

/-- The shortest image with a first word, and the longest. -/
theorem witness_FirstInstruction : ([] : List Byte).length + 2 ≤ 3584 ∧ (List.replicate 3582 (0x00 : Byte)).length + 2 ≤ 3584 := by
  refine ⟨by decide, ?_⟩; rw [List.length_replicate]

/-- The three kinds of quiescent state (T2, T24, T126). -/
theorem witness_Quiescent : (start 0x1200 fun s => s).nextInstr = .jump 0x200 ∧
    (start 0xB200 fun s => s).nextInstr = .jumpIndexed 0x200 ∧ (start 0xF30A fun s => s).nextInstr = .waitForKey 3 := by decide

end Sys2Proof.Tests
end

section
/-! The order of the bytes of a fetched word (20_memory.md R61, R62). -/

namespace Sys2Proof.Machine

/-- A word is the one fetched at `a` exactly when its bits 15:8 are the byte at `a` and its bits 7:0 the byte after it. -/
theorem eq_wordAt_iff (s : State) (a op : Word) :
    op = s.wordAt a ↔ op.extractLsb' 8 8 = s.byteAt a ∧ op.extractLsb' 0 8 = s.byteAt (a + 1) :=
  eq_wordOfBytes_iff op (s.byteAt a) (s.byteAt (a + 1))

/-- Settles O7: the two bytes determine the fetched word, and STEP is exec of what that word decodes to. -/
theorem fetchIsBigEndian : Obligations.FetchIsBigEndian := by
  intro s op hhi hlo
  obtain rfl : op = s.wordAt s.pc := (eq_wordAt_iff s s.pc op).mpr ⟨hhi, hlo⟩
  rfl

end Sys2Proof.Machine
end

section
/-! pc along a run: what one instruction leaves it at, and what steps that divert nothing add up to
(10_state.md R24, 40_step_cycle.md R127). -/

namespace Sys2Proof.Machine

/-- STEP is exec of the next instruction. -/
theorem step_eq_exec_nextInstr (s : State) : step s = exec s.nextInstr s := rfl

/-- Every instruction completes with pc as R24's table says. Apart from the skips, LoadRegisters and WaitForKey its meaning
has a single outcome, and pc is read off from it. -/
theorem exec_pc (i : Instr) (s : State) : ∃ t, exec i s = .next t ∧ t.pc = i.pcAfter s := by
  cases i with
  | skipEqImm x kk => exact ⟨_, exec_skipEqImm s x kk, rfl⟩
  | skipNeqImm x kk => exact ⟨_, exec_skipNeqImm s x kk, rfl⟩
  | skipEqReg x y => exact ⟨_, exec_skipEqReg s x y, rfl⟩
  | skipNeqReg x y => exact ⟨_, exec_skipNeqReg s x y, rfl⟩
  | skipKeyPressed x => exact ⟨_, exec_skipKeyPressed s x, rfl⟩
  | skipKeyNotPressed x => exact ⟨_, exec_skipKeyNotPressed s x, rfl⟩
  | loadRegisters x => exact ⟨_, exec_loadRegisters s x, rfl⟩
  | waitForKey x => exact ⟨_, exec_waitForKey s x, apply_ite State.pc _ _ _⟩
  | _ => exact ⟨_, rfl, rfl⟩

/-- R24's table at an instruction that does not divert control: a skip not taken and a WaitForKey with a key take the
branch of the epilogue. -/
theorem pcAfter_of_not_divertsControl {i : Instr} {s : State} (h : ¬ i.divertsControl s) : i.pcAfter s = s.pc + 2 := by
  cases i with
  | ret | jump _ | call _ | jumpIndexed _ => exact absurd trivial h
  | skipEqImm _ _ | skipEqReg _ _ | skipKeyPressed _ => exact if_neg h
  | skipNeqImm _ _ | skipNeqReg _ _ => exact if_pos (not_not.mp h)
  | skipKeyNotPressed _ => exact if_pos (Bool.eq_true_of_not_eq_false h)
  | waitForKey _ => exact if_pos (Nat.not_lt.mp h)
  | _ => rfl

/-- A step that does not divert control advances pc by the length of its instruction. -/
theorem step_pc_of_not_divertsControl {s : State} (h : ¬ s.nextInstr.divertsControl s) :
    ∃ t, step s = .next t ∧ t.pc = s.pc + 2 := by
  obtain ⟨t, ht, hpc⟩ := exec_pc s.nextInstr s
  exact ⟨t, ht, hpc.trans (pcAfter_of_not_divertsControl h)⟩

/-- A run goes on from what its first step leaves. -/
theorem run_succ_of_step {s t : State} (h : step s = .next t) (k : Nat) :
    Sys2Proof.core.run (k + 1) s = Sys2Proof.core.run k t := by
  have hcore : Sys2Proof.core.step s = .next t := h
  simp only [Host.Core.run, hcore]

/-- None of the first `k` steps from `s` diverts control. -/
def State.StraightLine (k : Nat) (s : State) : Prop :=
  ∀ j < k, ∀ u, Sys2Proof.core.run j s = .next u → ¬ u.nextInstr.divertsControl u

theorem State.StraightLine.head {k : Nat} {s : State} (h : s.StraightLine (k + 1)) : ¬ s.nextInstr.divertsControl s :=
  h 0 k.succ_pos s rfl

theorem State.StraightLine.tail {k : Nat} {s t : State} (h : s.StraightLine (k + 1)) (hst : step s = .next t) :
    t.StraightLine k :=
  fun j hj u hu => h (j + 1) (Nat.succ_lt_succ hj) u ((run_succ_of_step hst j).trans hu)

/-- R127 (b) from any pc, modulo 65536. -/
theorem run_pc_of_straightLine (k : Nat) (s : State) (h : s.StraightLine k) :
    ∃ t, Sys2Proof.core.run k s = .next t ∧ t.pc = s.pc + BitVec.ofNat 16 (2 * k) := by
  induction k generalizing s with
  | zero => exact ⟨s, rfl, (BitVec.add_zero s.pc).symm⟩
  | succ k ih =>
    obtain ⟨u, hsu, hu⟩ := step_pc_of_not_divertsControl h.head
    obtain ⟨t, hut, ht⟩ := ih u (h.tail hsu)
    refine ⟨t, (run_succ_of_step hsu k).trans hut, ?_⟩
    calc t.pc = s.pc + 2 + BitVec.ofNat 16 (2 * k) := by rw [ht, hu]
      _ = s.pc + BitVec.ofNat 16 (2 + 2 * k) := by rw [BitVec.add_assoc, BitVec.ofNat_add]; rfl
      _ = s.pc + BitVec.ofNat 16 (2 * (k + 1)) := by rw [Nat.add_comm 2, Nat.mul_succ]

/-- RESET puts pc at 0x200, and a LOAD that fits leaves it there. -/
theorem pc_of_reset_load {image : List Byte} {s₀ s : State} (himage : image.length ≤ 3584)
    (h : runTransactions [.reset, .load image] s₀ = .next s) : s.pc = 0x200 := by
  have hreset : transact .reset s₀ = .next (resetTransaction s₀, .done) := rfl
  rw [runTransactions_cons hreset, runTransactions_cons (transact_load_ok _ himage)] at h
  cases h
  rfl

/-- R127 (a): the step leaves pc at the target itself, and the next one runs the word there. -/
theorem step_of_jump_0x300 {s : State} (h : s.nextInstr = .jump 0x300) :
    ∃ t, step s = .next t ∧ t.pc = 0x300 ∧ step t = exec (decodeWord (t.byteAt 0x300 ++ t.byteAt 0x301)) t := by
  refine ⟨s.setPc 0x300, ?_, rfl, rfl⟩
  rw [step_eq_exec_nextInstr, h, exec_jump]
  rfl

/-- Settles O10: the jump from the equation of Jump; the advance by induction on the number of steps; after RESET and LOAD
the sum does not wrap, because the image fits below 0x1000. -/
theorem jumpIsExactAndStraightLineAdvancesByLength : Obligations.JumpIsExactAndStraightLineAdvancesByLength := by
  refine ⟨fun s => step_of_jump_0x300, run_pc_of_straightLine, fun k image s₀ s hk hfits hload hline => ?_⟩
  obtain ⟨t, hrun, hpc⟩ := run_pc_of_straightLine k s hline
  refine ⟨t, hrun, ?_⟩
  have hsmall : 2 * k ≤ 3584 := hk ▸ hfits
  have hbase : (0x200 : Word).toNat = 0x200 := rfl
  rw [hpc, pc_of_reset_load hfits hload, hk, BitVec.toNat_add, BitVec.toNat_ofNat, hbase]
  omega

end Sys2Proof.Machine
end

section
/-! Jump and the compare-and-skip instructions (41_control_flow.md R141, R143 to R146): each is the whole of its class, and
changes pc alone. -/

namespace Sys2Proof.Machine

/-- The mask of R96 that fixes the class alone: the opcodes it selects are those of the class. -/
theorem encodes_of_fieldClass (cls : Nibble) {matched : Word} {f : Word → Instr} (hm : fieldClass matched = cls)
    (h : ∀ op, fieldClass op = cls → decodeWord op = f op) : Encodes 0xF000 matched f := by
  intro op hop
  obtain ⟨hcls, -⟩ := (and_F000_eq op matched).mp hop
  exact h op (hcls.trans hm)

/-- A write of pc changes no other place. -/
theorem onlyChanges_setPc (s : State) (target : Word) : OnlyChanges (· ∈ [.pc]) s (s.setPc target) :=
  fun _ hl => get_setPc (fun h => hl (List.mem_singleton.mpr h)) s target

/-- An address operand is widened with zero bits (30_encoding.md R93). -/
@[simp] theorem toNat_addrOperand (nnn : Addr12) : (addrOperand nnn).toNat = nnn.toNat :=
  BitVec.toNat_setWidth_of_le (by decide)

/-- Settles O22: class 1 is Jump, and its next state is a write of pc with the widened address. -/
theorem jumpGoesToItsAddress : Obligations.JumpGoesToItsAddress := by
  constructor
  · exact encodes_of_fieldClass 0x1#4 rfl fun op h => by simp only [decodeWord, h]
  · intro nnn s
    exact ⟨s.setPc (addrOperand nnn), exec_jump s nnn, toNat_addrOperand nnn, onlyChanges_setPc s _⟩

/-- Settles O26: classes 3, 4, 5 and 9 are the four skips, and the next states are those of their equations, where a skip on
a difference has its branches the other way round. -/
theorem compareSkipsPassOverOneInstruction : Obligations.CompareSkipsPassOverOneInstruction := by
  refine ⟨?skipEqImm, ?skipNeqImm, ?skipEqReg, ?skipNeqReg, fun x y kk s => ?next⟩
  case skipEqImm => exact encodes_of_fieldClass 0x3#4 rfl fun op h => by simp only [decodeWord, h]
  case skipNeqImm => exact encodes_of_fieldClass 0x4#4 rfl fun op h => by simp only [decodeWord, h]
  case skipEqReg => exact encodes_of_fieldClass 0x5#4 rfl fun op h => by simp only [decodeWord, h]
  case skipNeqReg => exact encodes_of_fieldClass 0x9#4 rfl fun op h => by simp only [decodeWord, h]
  case next =>
    simp only [ne_eq, ite_not]
    exact ⟨exec_skipEqImm s x kk, exec_skipNeqImm s x kk, exec_skipEqReg s x y, exec_skipNeqReg s x y⟩

end Sys2Proof.Machine
end

section
/-! LoadImm, AddImm and Copy (42_alu.md R160 to R162): each writes the one register it names, and pc by the epilogue. -/

namespace Sys2Proof.Machine

/-- R96's row of Copy: class 8 with the low nibble 0. -/
theorem encodes_copy : Encodes 0xF00F 0x8000 (fun op => .copy (fieldX op) (fieldY op)) := by
  intro op hop
  obtain ⟨hcls, -, -, hn⟩ := (and_F00F_eq op 0x8000).mp hop
  have hcls8 : fieldClass op = 0x8#4 := hcls
  have hn0 : fieldN op = 0x0#4 := hn
  simp only [decodeWord, hcls8, decodeClass8, hn0]

/-- A write of one register and then of pc changes no other place. -/
theorem onlyChanges_setReg_setPc (s : State) (x : RegIdx) (b : Byte) (target : Word) :
    OnlyChanges (· ∈ [.pc, .reg x]) s ((s.setReg x b).setPc target) := by
  intro l hl
  obtain ⟨hpc, hreg⟩ : l ≠ .pc ∧ l ≠ .reg x := by simpa using hl
  exact (get_setPc hpc _ target).trans (get_setReg hreg s b)

/-- Settles O28: classes 6 and 7 and the row of Copy; each next state is a write of Vx and then of pc, so one lemma reads
the register back and one gives the frame. -/
theorem loadAddImmAndCopyWriteOneRegister : Obligations.LoadAddImmAndCopyWriteOneRegister := by
  refine ⟨?loadImmWord, ?addImmWord, encodes_copy, fun x y kk s => ⟨?loadImm, ?addImm, ?copy⟩⟩
  case loadImmWord => exact encodes_of_fieldClass 0x6#4 rfl fun op h => by simp only [decodeWord, h]
  case addImmWord => exact encodes_of_fieldClass 0x7#4 rfl fun op h => by simp only [decodeWord, h]
  case loadImm =>
    exact ⟨_, exec_loadImm s x kk, State.reg_setReg_self s x kk, rfl, onlyChanges_setReg_setPc s x kk _⟩
  case addImm =>
    have hsum : ((s.setReg x (s.reg x + kk)).reg x).toNat = ((s.reg x).toNat + kk.toNat) % 256 := by
      rw [State.reg_setReg_self, BitVec.toNat_add]
    exact ⟨_, exec_addImm s x kk, hsum, rfl, onlyChanges_setReg_setPc s x _ _⟩
  case copy =>
    exact ⟨_, exec_copy s x y, State.reg_setReg_self s x _, rfl, onlyChanges_setReg_setPc s x _ _⟩

end Sys2Proof.Machine
end

section
/-! SetIndex and SetIndexToDigitSprite (43_index_memory.md R190, R192): each writes I, and pc by the epilogue. -/

namespace Sys2Proof.Machine

/-- The low byte of a word is its y and n fields (30_encoding.md R91). -/
theorem fieldKK_eq_fieldY_append_fieldN (op : Word) : fieldKK op = fieldY op ++ fieldN op := by
  conv_lhs => rw [word_eq_fields op]
  exact fieldKK_formR _ _ _ _

/-- The mask of R96 that fixes the class and the low byte: the opcodes it selects are those of the class with that byte. -/
theorem encodes_of_fieldClass_fieldKK (cls : Nibble) (kk : Byte) {matched : Word} {f : Word → Instr}
    (hm : fieldClass matched = cls) (hk : fieldKK matched = kk)
    (h : ∀ op, fieldClass op = cls → fieldKK op = kk → decodeWord op = f op) : Encodes 0xF0FF matched f := by
  intro op hop
  obtain ⟨hcls, -, hy, hn⟩ := (and_F0FF_eq op matched).mp hop
  have hkk : fieldKK op = fieldKK matched := by simp only [fieldKK_eq_fieldY_append_fieldN, hy, hn]
  exact h op (hcls.trans hm) (hkk.trans hk)

/-- Class 0xF is the decoder's last arm (30_encoding.md R104). -/
theorem decodeWord_of_classF {op : Word} (h : fieldClass op = 0xF) : decodeWord op = decodeClassF op := by
  rw [decodeWord, h]
  rfl

/-- A write of I and then of pc changes no other place. -/
theorem onlyChanges_setIndexReg_setPc (s : State) (a target : Word) :
    OnlyChanges (· ∈ [.pc, .index]) s ((s.setIndexReg a).setPc target) := by
  intro l hl
  obtain ⟨hpc, hindex⟩ : l ≠ .pc ∧ l ≠ .index := by simpa using hl
  exact (get_setPc hpc _ target).trans (get_setIndexReg hindex s a)

/-- A register is widened with zero bits. -/
@[simp] theorem toNat_regWide (s : State) (x : RegIdx) : (s.regWide x).toNat = (s.reg x).toNat :=
  BitVec.toNat_setWidth_of_le (by decide)

/-- The whole Vx is multiplied, and the product needs no more than 16 bits: 255 * 5 < 65536. -/
theorem toNat_regWide_mul_five (s : State) (x : RegIdx) : (s.regWide x * 5).toNat = (s.reg x).toNat * 5 := by
  have hfive : (5 : Word).toNat = 5 := rfl
  have hbyte : (s.reg x).toNat < 256 := (s.reg x).isLt
  rw [BitVec.toNat_mul, toNat_regWide, hfive]
  exact Nat.mod_eq_of_lt (by omega)

/-- Settles O32: class 0xA, and class 0xF with the low byte 0x29; each next state is a write of I and then of pc, with the
widened address in I or the product that does not wrap. -/
theorem indexIsSetToAddressOrGlyph : Obligations.IndexIsSetToAddressOrGlyph := by
  refine ⟨?setIndexWord, ?digitSpriteWord, fun nnn s => ?setIndex, fun x s => ?digitSprite⟩
  case setIndexWord => exact encodes_of_fieldClass 0xA#4 rfl fun op h => by simp only [decodeWord, h]
  case digitSpriteWord =>
    exact encodes_of_fieldClass_fieldKK 0xF#4 0x29#8 rfl rfl fun op h hk => by
      simp only [decodeWord_of_classF h, decodeClassF, hk]
  case setIndex =>
    exact ⟨_, exec_setIndex s nnn, toNat_addrOperand nnn, rfl, onlyChanges_setIndexReg_setPc s _ _⟩
  case digitSprite =>
    exact ⟨_, exec_setIndexToDigitSprite s x, toNat_regWide_mul_five s x, rfl, onlyChanges_setIndexReg_setPc s _ _⟩

end Sys2Proof.Machine
end

section
/-! Clear (44_display.md R210): it writes the whole frame buffer, and pc by the epilogue. -/

namespace Sys2Proof.Machine

/-- A write of the frame buffer changes its cells alone. -/
theorem get_setFb {l : Loc} (h : ∀ r c, l ≠ .pixel r c) (s : State) (fb : FrameBuffer) :
    (s.setFb fb).get l = s.get l := by
  cases l with
  | pixel r c => exact absurd rfl (h r c)
  | _ => rfl

/-- A write of the frame buffer and then of pc changes no other place. -/
theorem onlyChanges_setFb_setPc (s : State) (fb : FrameBuffer) (target : Word) :
    OnlyChanges (fun l => l = .pc ∨ ∃ r c, l = .pixel r c) s ((s.setFb fb).setPc target) := by
  intro l hl
  obtain ⟨hpc, hpixel⟩ := not_or.mp hl
  exact (get_setPc hpc _ target).trans (get_setFb (fun r c h => hpixel ⟨r, c, h⟩) s fb)

/-- Settles O38: class 0 with the low byte 0xE0; the next state is a write of the frame buffer with cells that are all off,
and then of pc. -/
theorem clearTurnsEveryCellOff : Obligations.ClearTurnsEveryCellOff := by
  refine ⟨?clearWord, fun s => ?next⟩
  case clearWord =>
    exact encodes_of_fieldClass_fieldKK 0x0#4 0xE0#8 rfl rfl fun op h hk => by
      simp only [decodeWord, h, decodeClass0, hk]
  case next =>
    have hoff (r : Fin 32) (c : Fin 64) :
        (Vector.replicate 32 (Vector.replicate 64 Config.pixOff))[r][c] = Config.pixOff := by
      simp only [Fin.getElem_fin, Vector.getElem_replicate]
    exact ⟨_, exec_clear s, hoff, rfl, onlyChanges_setFb_setPc s _ _⟩

end Sys2Proof.Machine
end

section
/-! DrawSprite (44_display.md R211 to R213): what the state after one draw holds in terms of the state before it, and the
flag of one draw and of two. -/

namespace Sys2Proof.Machine

section OneDraw

variable {s t u : State} {x y : RegIdx} {n : Nibble}

/-- The one outcome of a draw, as an equation for the next state. -/
theorem eq_of_exec_drawSprite (h : exec (.drawSprite x y n) s = .next t) :
    t = ((s.setFb (s.drawn x y n).fb).setReg flagReg (flagByte (s.drawn x y n).collision)).setPc (s.pc + 2) := by
  rw [exec_drawSprite] at h
  exact (Host.Outcome.next.inj h).symm

theorem pixel_drawSprite_of_underSprite (h : exec (.drawSprite x y n) s = .next t) {r : Fin 32} {c : Fin 64}
    (hu : s.underSprite x y n r c) : t.pixel r c = s.pixel r c ^^^ 0xFF := by
  rw [eq_of_exec_drawSprite h]
  exact s.drawn_of_underSprite hu

theorem pixel_drawSprite_of_not_underSprite (h : exec (.drawSprite x y n) s = .next t) {r : Fin 32} {c : Fin 64}
    (hu : ¬ s.underSprite x y n r c) : t.pixel r c = s.pixel r c := by
  rw [eq_of_exec_drawSprite h]
  exact s.drawn_of_not_underSprite hu

/-- VF after a draw is a flag byte, whatever VF was. -/
theorem vf_drawSprite (h : exec (.drawSprite x y n) s = .next t) :
    t.reg 0xF = flagByte (s.drawn x y n).collision := by
  rw [eq_of_exec_drawSprite h]
  exact State.reg_setReg_self _ flagReg _

theorem vf_drawSprite_eq_zero_or_one (h : exec (.drawSprite x y n) s = .next t) :
    t.reg 0xF = 0x00 ∨ t.reg 0xF = 0x01 := by
  rw [vf_drawSprite h, flagByte_eq_zero_iff, flagByte_eq_one_iff]
  exact Bool.eq_false_or_eq_true _ |>.symm

theorem vf_drawSprite_eq_one_iff (h : exec (.drawSprite x y n) s = .next t) :
    t.reg 0xF = 0x01 ↔ ∃ r c, s.underSprite x y n r c ∧ s.pixel r c = 0xFF := by
  rw [vf_drawSprite h, flagByte_eq_one_iff]
  exact s.drawn_collision x y n

/-- A cell goes from on to off exactly when it is on and under the sprite. -/
theorem on_and_off_after_drawSprite_iff (h : exec (.drawSprite x y n) s = .next t) (r : Fin 32) (c : Fin 64) :
    s.pixel r c = 0xFF ∧ t.pixel r c = 0x00 ↔ s.underSprite x y n r c ∧ s.pixel r c = 0xFF := by
  constructor
  · rintro ⟨hon, hoff⟩
    refine ⟨not_not.mp fun hu => ?_, hon⟩
    rw [pixel_drawSprite_of_not_underSprite h hu, hon] at hoff
    exact absurd hoff (by decide)
  · rintro ⟨hu, hon⟩
    refine ⟨hon, ?_⟩
    rw [pixel_drawSprite_of_underSprite h hu, hon]
    decide

/-- With an origin that is not in VF, a second draw is over the same cells as the first. -/
theorem underSprite_after_drawSprite (hx : x ≠ 0xF) (hy : y ≠ 0xF) (h : exec (.drawSprite x y n) s = .next t)
    (r : Fin 32) (c : Fin 64) : t.underSprite x y n r c ↔ s.underSprite x y n r c := by
  have hreg {z : RegIdx} (hz : z ≠ 0xF) : t.reg z = s.reg z := by
    rw [eq_of_exec_drawSprite h]
    exact State.reg_setReg_of_ne _ hz _
  have hbyte (k : Nat) : t.byteAt (t.indexPlus k) = s.byteAt (s.indexPlus k) := by
    rw [eq_of_exec_drawSprite h]
    rfl
  simp only [State.underSprite, hreg hx, hreg hy, hbyte]

/-- Two draws at one origin flip each cell twice or not at all. -/
theorem pixel_drawSprite_twice (hx : x ≠ 0xF) (hy : y ≠ 0xF) (hst : exec (.drawSprite x y n) s = .next t)
    (htu : exec (.drawSprite x y n) t = .next u) (r : Fin 32) (c : Fin 64) : u.pixel r c = s.pixel r c := by
  have hsame := underSprite_after_drawSprite hx hy hst r c
  by_cases hu : s.underSprite x y n r c
  · rw [pixel_drawSprite_of_underSprite htu (hsame.mpr hu), pixel_drawSprite_of_underSprite hst hu, BitVec.xor_assoc,
      BitVec.xor_self, BitVec.xor_zero]
  · rw [pixel_drawSprite_of_not_underSprite htu (mt hsame.mp hu), pixel_drawSprite_of_not_underSprite hst hu]

/-- The cell of the origin is under a sprite of one row 0xFF. -/
theorem underSprite_origin (hbyte : s.byteAt s.index = 0xFF) :
    s.underSprite x y 1 (spriteRow (s.reg y) 0) (spriteCol (s.reg x) 0) := by
  have hbit : (s.byteAt (s.indexPlus 0)).getLsbD (7 - 0) = true := by
    rw [State.indexPlus, BitVec.add_zero, hbyte]
    decide
  exact ⟨0, by decide, 0, by decide, hbit, rfl, rfl⟩

end OneDraw

/-- Settles O40: the flag says that a cell under the sprite was on, and those are the cells that go from on to off. On a
clear frame buffer the first draw turns the origin's cell on, so the second one collides there. -/
theorem collisionFlagIsFreshAndSticky : Obligations.CollisionFlagIsFreshAndSticky := by
  refine ⟨fun x y n s t _ h => ⟨vf_drawSprite_eq_zero_or_one h, ?iff⟩,
    fun x y s t u hx hy hclear hbyte hst htu => ⟨?first, fun r c => ?cells, ?second⟩⟩
  case iff =>
    simp only [vf_drawSprite_eq_one_iff h, on_and_off_after_drawSprite_iff h]
  case first =>
    refine (vf_drawSprite_eq_zero_or_one hst).resolve_right fun hone => ?_
    obtain ⟨r, c, -, hon⟩ := (vf_drawSprite_eq_one_iff hst).mp hone
    rw [hclear r c] at hon
    exact absurd hon (by decide)
  case cells =>
    exact (pixel_drawSprite_twice hx hy hst htu r c).trans (hclear r c)
  case second =>
    have horigin := underSprite_origin (x := x) (y := y) hbyte
    refine (vf_drawSprite_eq_one_iff htu).mpr ⟨_, _, (underSprite_after_drawSprite hx hy hst _ _).mpr horigin, ?_⟩
    rw [pixel_drawSprite_of_underSprite hst horigin, hclear]
    decide

end Sys2Proof.Machine
end

section
/-! WaitForKey, ReadDelayTimer, SetDelayTimer and SetSoundTimer (45_keypad_timers_random.md R232 to R235): each writes one
place, and pc by the epilogue; a WaitForKey without a key writes nothing. -/

namespace Sys2Proof.Machine

/-- R96's mask of a row of class 0xF: the opcodes it selects are those that the class tells apart by that low byte. -/
theorem encodes_of_classF_fieldKK (kk : Byte) {matched : Word} {f : Word → Instr} (hm : fieldClass matched = 0xF#4)
    (hk : fieldKK matched = kk) (h : ∀ op, fieldKK op = kk → decodeClassF op = f op) : Encodes 0xF0FF matched f :=
  encodes_of_fieldClass_fieldKK 0xF#4 kk hm hk fun op hcls hkk => (decodeWord_of_classF hcls).trans (h op hkk)

/-- A write of DT changes no other place. -/
theorem get_setDt {l : Loc} (h : l ≠ .dt) (s : State) (t : Byte) : (s.setDt t).get l = s.get l := by
  cases l with
  | dt => exact absurd rfl h
  | _ => rfl

/-- A write of ST changes no other place. -/
theorem get_setSt {l : Loc} (h : l ≠ .st) (s : State) (t : Byte) : (s.setSt t).get l = s.get l := by
  cases l with
  | st => exact absurd rfl h
  | _ => rfl

/-- The frame of a write of one place, whichever it is, and then of pc. -/
theorem onlyChanges_setPc_of_get {place : Loc} {s t : State} (h : ∀ l, l ≠ place → t.get l = s.get l) (target : Word) :
    OnlyChanges (· ∈ [.pc, place]) s (t.setPc target) := by
  intro l hl
  obtain ⟨hpc, hplace⟩ : l ≠ .pc ∧ l ≠ place := by simpa using hl
  exact (get_setPc hpc t target).trans (h l hplace)

/-- WaitForKey with a key in LASTKEY takes it. -/
theorem exec_waitForKey_of_key {s : State} (h : s.lastKey.toNat ≤ 15) (x : RegIdx) :
    exec (.waitForKey x) s = .next ((s.setReg x s.lastKey).setPc (s.pc + 2)) := by
  rw [exec_waitForKey, if_pos h]

/-- WaitForKey without a key in LASTKEY holds. -/
theorem exec_waitForKey_of_noKey {s : State} (h : s.lastKey.toNat ≥ 16) (x : RegIdx) :
    exec (.waitForKey x) s = .next s := by
  rw [exec_waitForKey, if_neg (Nat.not_le.mpr h)]

/-- Settles O44: class 0xF with the low byte 0x0A; the bounds 15 and 16 select the two branches of the meaning, a write of
Vx and then of pc, or nothing. -/
theorem waitForKeyTakesOrHolds : Obligations.WaitForKeyTakesOrHolds := by
  refine ⟨?word, fun x s => ⟨fun hkey => ?takes, fun hnone => ?holds⟩⟩
  case word =>
    exact encodes_of_classF_fieldKK 0x0A#8 rfl rfl fun op hkk => by simp only [decodeClassF, hkk]
  case takes =>
    exact ⟨_, exec_waitForKey_of_key hkey x, State.reg_setReg_self s x _, rfl, rfl, onlyChanges_setReg_setPc s x _ _⟩
  case holds => exact exec_waitForKey_of_noKey hnone x

/-- Settles O46: class 0xF with the low bytes 0x07, 0x15 and 0x18; each next state is a write of the destination and then
of pc. -/
theorem timerInstructionsMoveTheTimer : Obligations.TimerInstructionsMoveTheTimer := by
  refine ⟨?readDtWord, ?setDtWord, ?setStWord, fun x s => ⟨?readDt, ?setDt, ?setSt⟩⟩
  case readDtWord =>
    exact encodes_of_classF_fieldKK 0x07#8 rfl rfl fun op hkk => by simp only [decodeClassF, hkk]
  case setDtWord =>
    exact encodes_of_classF_fieldKK 0x15#8 rfl rfl fun op hkk => by simp only [decodeClassF, hkk]
  case setStWord =>
    exact encodes_of_classF_fieldKK 0x18#8 rfl rfl fun op hkk => by simp only [decodeClassF, hkk]
  case readDt =>
    exact ⟨_, exec_readDelayTimer s x, State.reg_setReg_self s x _, rfl, onlyChanges_setReg_setPc s x _ _⟩
  case setDt =>
    exact ⟨_, exec_setDelayTimer s x, rfl, rfl, onlyChanges_setPc_of_get (fun _ hl => get_setDt hl s _) _⟩
  case setSt =>
    exact ⟨_, exec_setSoundTimer s x, rfl, rfl, onlyChanges_setPc_of_get (fun _ hl => get_setSt hl s _) _⟩

end Sys2Proof.Machine
end

section
/-! What the transactions report (50_interface.md R260): all complete, and an oversize LOAD alone answers an error. -/

namespace Sys2Proof.Machine

/-- Every transaction answers a state and a reply; the only ones with a choice are LOAD, by the length of its image, and
STEP, by the instruction, which always completes. -/
theorem transact_completes (tr : Transaction) (s : State) : ∃ t reply, transact tr s = .next (t, reply) ∧
    (reply = .loadError → ∃ image, tr = .load image ∧ image.length > 3584) := by
  cases tr with
  | load image =>
    obtain hfits | htooLong := le_or_gt image.length 3584
    · exact ⟨_, _, transact_load_ok s hfits, nofun⟩
    · exact ⟨_, _, transact_load_error s htooLong, fun _ => ⟨image, rfl, htooLong⟩⟩
  | step =>
    obtain ⟨t, hstep⟩ := step_completes s
    exact ⟨t, _, transact_step hstep, nofun⟩
  | _ => exact ⟨_, _, rfl, nofun⟩

/-- Settles O8: STEP completes because every instruction does; the replies by cases on the transaction. -/
theorem onlyLoadReportsAnError : Obligations.OnlyLoadReportsAnError :=
  ⟨step_completes, transact_completes⟩

end Sys2Proof.Machine
end

section
/-! KEYWRITE and LASTKEYWRITE (50_interface.md R255, R256): each writes one place, and no instruction writes either. -/

namespace Sys2Proof.Machine

/-- A KEYWRITE changes the flag of its own key alone. -/
theorem get_keyWrite {l : Loc} {k : Nibble} (h : l ≠ .key k) (b : Bool) (s : State) :
    (keyWrite k b s).get l = s.get l := by
  cases l with
  | key j =>
    have hj : j ≠ k := fun hj => h (by rw [hj])
    simp only [State.get, keyDown_keyWrite, if_neg hj]
  | _ => rfl

/-- A LASTKEYWRITE changes the slot alone. -/
theorem get_lastKeyWrite {l : Loc} (h : l ≠ .lastKey) (v : Byte) (s : State) : (lastKeyWrite v s).get l = s.get l := by
  cases l with
  | lastKey => exact absurd rfl h
  | _ => rfl

/-- No instruction writes the keypad: neither a flag nor the slot, which WaitForKey only reads. -/
theorem exec_keeps_keypad (i : Instr) (s : State) :
    ∃ t, exec i s = .next t ∧ t.key = s.key ∧ t.lastKey = s.lastKey := by
  cases i with
  | skipEqImm x kk => exact ⟨_, exec_skipEqImm s x kk, rfl, rfl⟩
  | skipNeqImm x kk => exact ⟨_, exec_skipNeqImm s x kk, rfl, rfl⟩
  | skipEqReg x y => exact ⟨_, exec_skipEqReg s x y, rfl, rfl⟩
  | skipNeqReg x y => exact ⟨_, exec_skipNeqReg s x y, rfl, rfl⟩
  | skipKeyPressed x => exact ⟨_, exec_skipKeyPressed s x, rfl, rfl⟩
  | skipKeyNotPressed x => exact ⟨_, exec_skipKeyNotPressed s x, rfl, rfl⟩
  | loadRegisters x =>
    exact ⟨_, exec_loadRegisters s x, State.setRegsFrom_key s 0 _, State.setRegsFrom_lastKey s 0 _⟩
  | waitForKey x =>
    obtain hkey | hnone := le_or_gt s.lastKey.toNat 15
    · exact ⟨_, exec_waitForKey_of_key hkey x, rfl, rfl⟩
    · exact ⟨s, exec_waitForKey_of_noKey hnone x, rfl, rfl⟩
  | _ => exact ⟨_, rfl, rfl, rfl⟩

/-- A STEP leaves the flags and the slot as they are. -/
theorem step_keeps_keypad {s t : State} (h : step s = .next t) : t.key = s.key ∧ t.lastKey = s.lastKey := by
  obtain ⟨u, hu, hkeypad⟩ := exec_keeps_keypad s.nextInstr s
  obtain rfl : t = u := Host.Outcome.next.inj (h.symm.trans hu)
  exact hkeypad

/-- Settles O50: each key write has the frame of its one place; a STEP writes neither, because no instruction does. -/
theorem keyWritesSetOneFlagOrTheSlot : Obligations.KeyWritesSetOneFlagOrTheSlot := by
  refine ⟨fun k b s => ?flag, fun v s => ?slot, fun s t => step_keeps_keypad⟩
  case flag =>
    refine ⟨keyWrite k b s, rfl, ?_, fun l hl => get_keyWrite (List.mem_singleton.not.mp hl) b s⟩
    rw [keyDown_keyWrite, if_pos rfl]
  case slot =>
    exact ⟨lastKeyWrite v s, rfl, rfl, fun l hl => get_lastKeyWrite (List.mem_singleton.not.mp hl) v s⟩

end Sys2Proof.Machine
end

section
/-! The first instruction of a loaded image (50_interface.md R252, 70_reset_and_hazards.md R310, R312). -/

namespace Sys2Proof.Machine

/-- The state that RESET and then LOAD leave. -/
theorem runTransactions_reset_load {image : List Byte} (hfits : image.length ≤ 3584) (s : State) :
    runTransactions [.reset, .load image] s = .next ((resetTransaction s).storeBytes 0x200 image) := by
  have hreset : transact .reset s = .next (resetTransaction s, .done) := rfl
  rw [runTransactions_cons hreset, runTransactions_cons (transact_load_ok _ hfits)]
  rfl

/-- Byte `k` of a store reads back at the base plus `k`. -/
theorem byteAt_storeBytes_of_lt {s : State} (hwf : s.mem.wf) (a : Word) {vs : List Byte} (hfits : vs.length ≤ 4096)
    {k : Nat} (hk : k < vs.length) : (s.storeBytes a vs).byteAt (a + BitVec.ofNat 16 k) = vs[k] :=
  Memory.read_writeBytes_at hwf a vs hfits k hk

/-- STEP fetches the bytes at pc and after it, the first one most significant (R62). -/
theorem step_eq_exec_of_bytes {s : State} {b₀ b₁ : Byte} (h₀ : s.byteAt s.pc = b₀) (h₁ : s.byteAt (s.pc + 1) = b₁) :
    step s = exec (decodeWord (b₀ ++ b₁)) s := by
  rw [step, State.wordAt, h₀, h₁]

/-- Settles O52: LOAD stores the image from 0x200, where RESET put pc, so the first fetch reads bytes 0 and 1 of it. -/
theorem firstInstructionIsTheImagesFirstWord : Obligations.FirstInstructionIsTheImagesFirstWord := by
  intro b₀ b₁ rest s hlen
  have hfits : (b₀ :: b₁ :: rest).length ≤ 3584 := hlen
  have hwf : (resetTransaction s).mem.wf := Memory.wf_nil
  have hmem : (b₀ :: b₁ :: rest).length ≤ 4096 := hfits.trans (by decide)
  have h₀ : ((resetTransaction s).storeBytes 0x200 (b₀ :: b₁ :: rest)).byteAt 0x200 = b₀ :=
    byteAt_storeBytes_of_lt hwf 0x200 hmem (k := 0) (Nat.succ_pos _)
  have h₁ : ((resetTransaction s).storeBytes 0x200 (b₀ :: b₁ :: rest)).byteAt 0x201 = b₁ :=
    byteAt_storeBytes_of_lt hwf 0x200 hmem (k := 1) (Nat.succ_lt_succ (Nat.succ_pos _))
  exact ⟨_, runTransactions_reset_load hfits s, rfl, h₀, h₁, step_eq_exec_of_bytes h₀ h₁⟩

end Sys2Proof.Machine
end

section
/-! What an instruction does, said once for all of them: the writes it makes before pc, and then pc by R24's table
(40_step_cycle.md R120, R123). -/

namespace Sys2Proof

open Machine

/-- The state an instruction leaves but for pc, which `Instr.pcAfter` gives. -/
def Instr.effect (s : State) : Instr → State
  | .clear => s.setFb (Vector.replicate 32 (Vector.replicate 64 Config.pixOff))
  | .ret => s.popPc
  | .call _ => s.push s.pc
  | .loadImm x kk => s.setReg x kk
  | .addImm x kk => s.setReg x (s.reg x + kk)
  | .copy x y => s.setReg x (s.reg y)
  | .or x y => s.setReg x (s.reg x ||| s.reg y)
  | .and x y => s.setReg x (s.reg x &&& s.reg y)
  | .xor x y => s.setReg x (s.reg x ^^^ s.reg y)
  | .addCarry x y => s.setResultAndFlag x (s.reg x + s.reg y) (carryFlag (s.reg x) (s.reg y))
  | .subBorrow x y => s.setResultAndFlag x (s.reg x - s.reg y) (noBorrowFlag (s.reg x) (s.reg y))
  | .shiftRight x => s.setResultAndFlag x (s.reg x >>> 1) (shiftRightFlag (s.reg x))
  | .revSubBorrow x y => s.setResultAndFlag x (s.reg y - s.reg x) (noBorrowFlag (s.reg y) (s.reg x))
  | .shiftLeft x => s.setResultAndFlag x (s.reg x <<< 1) (shiftLeftFlag (s.reg x))
  | .setIndex nnn => s.setIndexReg (addrOperand nnn)
  | .random x kk => randomWith (Config.rnd s.draws) x kk s
  | .drawSprite x y n => (s.setFb (s.drawn x y n).fb).setReg flagReg (flagByte (s.drawn x y n).collision)
  | .readDelayTimer x => s.setReg x s.dt
  | .waitForKey x => if s.lastKey.toNat ≤ 15 then s.setReg x s.lastKey else s
  | .setDelayTimer x => s.setDt (s.reg x)
  | .setSoundTimer x => s.setSt (s.reg x)
  | .addIndex x => s.setIndexReg (s.index + s.regWide x)
  | .setIndexToDigitSprite x => s.setIndexReg (s.regWide x * 5)
  | .storeBCD x => s.storeBytes s.index (bcdDigits (s.reg x))
  | .storeRegisters x => s.storeBytes s.index (s.regsUpTo x)
  | .loadRegisters x => State.setRegsFrom 0 (s.mem.readBytes s.index (x.toNat + 1)) s
  | .jump _ | .jumpIndexed _ | .skipEqImm _ _ | .skipNeqImm _ _ | .skipEqReg _ _ | .skipNeqReg _ _
  | .skipKeyPressed _ | .skipKeyNotPressed _ | .unrecognised _ => s

namespace Machine

/-- The outcome of every instruction in every state. -/
theorem exec_eq (i : Instr) (s : State) : exec i s = .next ((i.effect s).setPc (i.pcAfter s)) := by
  cases i with
  | skipEqImm x kk => exact exec_skipEqImm s x kk
  | skipNeqImm x kk => exact exec_skipNeqImm s x kk
  | skipEqReg x y => exact exec_skipEqReg s x y
  | skipNeqReg x y => exact exec_skipNeqReg s x y
  | skipKeyPressed x => exact exec_skipKeyPressed s x
  | skipKeyNotPressed x => exact exec_skipKeyNotPressed s x
  | loadRegisters x => exact exec_loadRegisters s x
  | waitForKey x =>
    rw [exec_waitForKey]
    simp only [Instr.effect, Instr.pcAfter]
    split <;> rfl
  | _ => rfl

/-- The next state, as an equation. -/
theorem eq_of_exec {i : Instr} {s t : State} (h : exec i s = .next t) : t = (i.effect s).setPc (i.pcAfter s) :=
  Host.Outcome.next.inj (h.symm.trans (exec_eq i s))

/-- What a register write leaves alone, WaitForKey leaves alone. -/
theorem effect_waitForKey_keeps {α : Type} (f : State → α) (s : State) (x : RegIdx)
    (hf : ∀ b, f (s.setReg x b) = f s) : f ((Instr.waitForKey x).effect s) = f s := by
  simp only [Instr.effect]
  split
  · exact hf _
  · rfl

end Machine

end Sys2Proof
end

section
/-! Which instructions change which item of state (10_state.md R23, R25 to R30, 20_memory.md R65), and what memory
and the frame buffer become. -/

namespace Sys2Proof.Machine

section Items

variable (i : Instr) (s : State)

theorem effect_index :
    (i.effect s).index = s.index ∨ i.mnemonic ∈ ["SetIndex", "AddIndex", "SetIndexToDigitSprite"] := by
  cases i with
  | setIndex _ | addIndex _ | setIndexToDigitSprite _ => exact .inr (by simp [Instr.mnemonic])
  | loadRegisters x => exact .inl (State.setRegsFrom_index s 0 _)
  | waitForKey x => exact .inl (effect_waitForKey_keeps State.index s x fun _ => rfl)
  | _ => exact .inl rfl

theorem effect_sp : (i.effect s).sp = s.sp ∨ i.mnemonic ∈ ["Call", "Return"] := by
  cases i with
  | call _ | ret => exact .inr (by simp [Instr.mnemonic])
  | loadRegisters x => exact .inl (State.setRegsFrom_sp s 0 _)
  | waitForKey x => exact .inl (effect_waitForKey_keeps State.sp s x fun _ => rfl)
  | _ => exact .inl rfl

theorem effect_stack : (i.effect s).stack = s.stack ∨ i.mnemonic = "Call" := by
  cases i with
  | call _ => exact .inr rfl
  | loadRegisters x => exact .inl (State.setRegsFrom_stack s 0 _)
  | waitForKey x => exact .inl (effect_waitForKey_keeps State.stack s x fun _ => rfl)
  | _ => exact .inl rfl

/-- Memory changes at the two stores, and there by bytes stored from I upward. -/
theorem effect_mem : (i.effect s).mem = s.mem ∨
    (∃ vs, (i.effect s).mem = s.mem.writeBytes s.index vs) ∧ i.mnemonic ∈ ["StoreBCD", "StoreRegisters"] := by
  cases i with
  | storeBCD _ | storeRegisters _ => exact .inr ⟨⟨_, rfl⟩, by simp [Instr.mnemonic]⟩
  | loadRegisters x => exact .inl (State.setRegsFrom_mem s 0 _)
  | waitForKey x => exact .inl (effect_waitForKey_keeps State.mem s x fun _ => rfl)
  | _ => exact .inl rfl

theorem effect_fb : (i.effect s).fb = s.fb ∨ i.mnemonic ∈ ["Clear", "DrawSprite"] := by
  cases i with
  | clear | drawSprite _ _ _ => exact .inr (by simp [Instr.mnemonic])
  | loadRegisters x => exact .inl (State.setRegsFrom_fb s 0 _)
  | waitForKey x => exact .inl (effect_waitForKey_keeps State.fb s x fun _ => rfl)
  | _ => exact .inl rfl

theorem effect_dt : (i.effect s).dt = s.dt ∨ i.mnemonic = "SetDelayTimer" := by
  cases i with
  | setDelayTimer _ => exact .inr rfl
  | loadRegisters x => exact .inl (State.setRegsFrom_dt s 0 _)
  | waitForKey x => exact .inl (effect_waitForKey_keeps State.dt s x fun _ => rfl)
  | _ => exact .inl rfl

theorem effect_st : (i.effect s).st = s.st ∨ i.mnemonic = "SetSoundTimer" := by
  cases i with
  | setSoundTimer _ => exact .inr rfl
  | loadRegisters x => exact .inl (State.setRegsFrom_st s 0 _)
  | waitForKey x => exact .inl (effect_waitForKey_keeps State.st s x fun _ => rfl)
  | _ => exact .inl rfl

/-- What an instruction makes of a cell: it stays, is turned off, or flips. -/
theorem effect_pixel (r : Fin 32) (c : Fin 64) : (i.effect s).pixel r c = s.pixel r c ∨
    (i.effect s).pixel r c = Config.pixOff ∨ (i.effect s).pixel r c = s.pixel r c ^^^ 0xFF := by
  cases i with
  | clear =>
    refine .inr (.inl ?_)
    simp only [Instr.effect, State.pixel_setFb, Fin.getElem_fin, Vector.getElem_replicate]
  | drawSprite x y n =>
    by_cases hu : s.underSprite x y n r c
    · exact .inr (.inr (s.drawn_of_underSprite hu))
    · exact .inl (s.drawn_of_not_underSprite hu)
  | loadRegisters x =>
    refine .inl ?_
    simp only [Instr.effect, State.pixel, State.setRegsFrom_fb]
  | waitForKey x => exact .inl (effect_waitForKey_keeps (State.pixel · r c) s x fun _ => rfl)
  | _ => exact .inl rfl

end Items

/-- Settles O19: STEP is exec of the next instruction, and pc, which it writes last, is none of these items. -/
theorem stepChangesEachItemOnlyAtItsInstructions : Obligations.StepChangesEachItemOnlyAtItsInstructions := by
  intro s t h
  obtain ⟨hkey, hlastKey⟩ := step_keeps_keypad h
  obtain rfl := eq_of_exec h
  exact ⟨hkey, hlastKey, effect_index _ s, effect_sp _ s, effect_stack _ s, (effect_mem _ s).imp_right And.right,
    effect_fb _ s, effect_dt _ s, effect_st _ s⟩

end Sys2Proof.Machine
end

section
/-! The invariant of every reachable state (10_state.md R27, R38): RESET establishes it and every transaction
keeps it. -/

namespace Sys2Proof.Machine

/-- A cell that is fully off or fully on is so after a flip. -/
theorem off_or_on_of_flip {b : Byte} (h : b = Config.pixOff ∨ b = Config.pixOn) :
    b ^^^ 0xFF = Config.pixOff ∨ b ^^^ 0xFF = Config.pixOn := by
  obtain rfl | rfl := h
  · exact .inr (by decide)
  · exact .inl (by decide)

/-- Settles O13: memory stays or gets a store, which keeps the canonical form; a cell stays, is turned off, or flips. -/
theorem stepKeepsInvariant : Obligations.StepKeepsInvariant := by
  intro s t ⟨hwf, hcells⟩ h
  obtain rfl := eq_of_exec h
  refine ⟨?mem, fun r c => ?cell⟩
  case mem =>
    obtain hmem | ⟨⟨vs, hmem⟩, -⟩ := effect_mem s.nextInstr s
    · exact hmem.symm ▸ hwf
    · exact hmem.symm ▸ Memory.wf_writeBytes hwf s.index vs
  case cell =>
    obtain hstay | hoff | hflip := effect_pixel s.nextInstr s r c
    · exact hstay.symm ▸ hcells r c
    · exact .inl hoff
    · exact hflip.symm ▸ off_or_on_of_flip (hcells r c)

theorem inv_resetTransaction (s : State) : (resetTransaction s).Inv := by
  refine ⟨Memory.wf_nil, fun r c => .inl ?_⟩
  simp only [State.pixel, resetTransaction, State.reset, Fin.getElem_fin, Vector.getElem_replicate]

/-- Settles O14: RESET from the state after reset gives the same state. -/
theorem resetSatisfiesInvariant : Obligations.ResetSatisfiesInvariant := inv_resetTransaction State.reset

/-- Every transaction keeps the invariant: RESET establishes it, LOAD stores or rejects, STEP keeps it, and the others
write neither memory nor the frame buffer. -/
theorem transact_keeps_inv {tr : Transaction} {s t : State} {r : Reply} (hs : s.Inv)
    (h : transact tr s = .next (t, r)) : t.Inv := by
  cases tr with
  | reset => cases h; exact inv_resetTransaction s
  | load image =>
    obtain hfits | htooLong := le_or_gt image.length 3584
    · cases (transact_load_ok s hfits).symm.trans h
      exact ⟨Memory.wf_writeBytes hs.1 _ image, hs.2⟩
    · cases (transact_load_error s htooLong).symm.trans h
      exact hs
  | step =>
    obtain ⟨u, hu⟩ := step_completes s
    cases (transact_step hu).symm.trans h
    exact stepKeepsInvariant s t hs hu
  | _ => cases h; exact hs

/-- Settles O15, by induction on the list: every transaction completes and keeps the invariant. -/
theorem transactionsKeepInvariant : Obligations.TransactionsKeepInvariant := by
  intro ts
  induction ts with
  | nil =>
    intro s t hs h
    cases h
    exact hs
  | cons tr ts ih =>
    intro s t hs h
    obtain ⟨u, r, hu, -⟩ := transact_completes tr s
    rw [runTransactions_cons hu] at h
    exact ih u t (transact_keeps_inv hs hu) h

end Sys2Proof.Machine
end

section
/-! The decoder by its table (30_encoding.md R95 to R97): which words of each class are unrecognised. -/

namespace Sys2Proof

theorem decodeClass0_eq_unrecognised_iff (op : Word) :
    decodeClass0 op = .unrecognised op ↔ fieldKK op ∉ [0xE0, 0xEE] := by
  unfold decodeClass0
  split <;> simp_all

theorem decodeClass8_eq_unrecognised_iff (op : Word) :
    decodeClass8 op = .unrecognised op ↔ fieldN op ∈ [0x8, 0x9, 0xA, 0xB, 0xC, 0xD, 0xF] := by
  obtain h | h | h | h | h | h | h | h | h | h | h | h | h | h | h | h := nibble_cases (fieldN op) <;>
    simp [decodeClass8, h]

theorem decodeClassE_eq_unrecognised_iff (op : Word) :
    decodeClassE op = .unrecognised op ↔ fieldKK op ∉ [0x9E, 0xA1] := by
  unfold decodeClassE
  split <;> simp_all

theorem decodeClassF_eq_unrecognised_iff (op : Word) : decodeClassF op = .unrecognised op ↔
    fieldKK op ∉ [0x07, 0x0A, 0x15, 0x18, 0x1E, 0x29, 0x33, 0x55, 0x65] := by
  unfold decodeClassF
  split <;> simp_all

/-- R97's table: the decoder and the well-formedness check leave out the same words. -/
theorem decodeWord_eq_unrecognised_iff (op : Word) : decodeWord op = .unrecognised op ↔ unrecognisedWord op = true := by
  rw [unrecognisedWord_iff, ← decodeClass0_eq_unrecognised_iff, ← decodeClass8_eq_unrecognised_iff,
    ← decodeClassE_eq_unrecognised_iff, ← decodeClassF_eq_unrecognised_iff]
  obtain h | h | h | h | h | h | h | h | h | h | h | h | h | h | h | h := nibble_cases (fieldClass op) <;>
    simp [decodeWord, h]

/-- Decoding undoes encoding on the words: the fields of a form are its operands, and an unrecognised word is its own
encoding. -/
theorem decodeWord_encodeWord {i : Instr} (h : i.wellFormed = true) : decodeWord (encodeWord i) = i := by
  cases i with
  | unrecognised w => exact (decodeWord_eq_unrecognised_iff w).mpr h
  | clear | ret => decide
  | jump | call | setIndex | jumpIndexed => simp [encodeWord, decodeWord]
  | skipEqImm | skipNeqImm | loadImm | addImm | random => simp [encodeWord, decodeWord]
  | skipEqReg | skipNeqReg | drawSprite => simp [encodeWord, decodeWord]
  | copy | or | and | xor | addCarry | subBorrow | shiftRight | revSubBorrow | shiftLeft =>
    simp [encodeWord, decodeWord, decodeClass8]
  | skipKeyPressed | skipKeyNotPressed => simp [encodeWord, decodeWord, decodeClassE]
  | readDelayTimer | waitForKey | setDelayTimer | setSoundTimer | addIndex | setIndexToDigitSprite | storeBCD
  | storeRegisters | loadRegisters => simp [encodeWord, decodeWord, decodeClassF]

/-- Settles O1: decoding the two bytes of a word is decoding the word. -/
theorem decodeInvertsEncode : Obligations.DecodeInvertsEncode := by
  intro i hi rest
  rw [encode, decodeBytes_bytesOfWord, decodeWord_encodeWord hi]

end Sys2Proof
end

section
/-! The decoder against the opcode map (30_encoding.md R96, R100). -/

namespace Sys2Proof

/-- Only the fallback arms give an unrecognised word, and each gives the word itself. -/
theorem eq_of_decodeWord_eq_unrecognised {op w : Word} (h : decodeWord op = .unrecognised w) : w = op := by
  unfold decodeWord decodeClass0 decodeClass8 decodeClassE decodeClassF at h
  repeat' split at h
  all_goals cases h
  all_goals rfl

theorem decodeWord_wellFormed (op : Word) : (decodeWord op).wellFormed = true := by
  cases h : decodeWord op with
  | unrecognised w =>
    obtain rfl := eq_of_decodeWord_eq_unrecognised h
    exact (decodeWord_eq_unrecognised_iff w).mp h
  | _ => rfl

section Congr

variable {op m : Word}

theorem mnemonic_decodeClass0_congr (h : fieldKK op = fieldKK m) :
    (decodeClass0 op).mnemonic = (decodeClass0 m).mnemonic := by
  rw [decodeClass0, decodeClass0, h]
  split <;> rfl

theorem mnemonic_decodeClass8_congr (h : fieldN op = fieldN m) :
    (decodeClass8 op).mnemonic = (decodeClass8 m).mnemonic := by
  rw [decodeClass8, decodeClass8, h]
  split <;> rfl

theorem mnemonic_decodeClassE_congr (h : fieldKK op = fieldKK m) :
    (decodeClassE op).mnemonic = (decodeClassE m).mnemonic := by
  rw [decodeClassE, decodeClassE, h]
  split <;> rfl

theorem mnemonic_decodeClassF_congr (h : fieldKK op = fieldKK m) :
    (decodeClassF op).mnemonic = (decodeClassF m).mnemonic := by
  rw [decodeClassF, decodeClassF, h]
  split <;> rfl

/-- R94, R95: the mnemonic depends on the class, in class 8 on the low nibble, and in classes 0, 0xE and 0xF on the low
byte. -/
theorem mnemonic_decodeWord_congr (hcls : fieldClass op = fieldClass m)
    (hn : fieldClass m = 0x8 → fieldN op = fieldN m) (hkk : fieldClass m ∈ [0x0, 0xE, 0xF] → fieldKK op = fieldKK m) :
    (decodeWord op).mnemonic = (decodeWord m).mnemonic := by
  unfold decodeWord
  rw [hcls]
  split
  case h_1 h => exact mnemonic_decodeClass0_congr (hkk (by simp [h]))
  case h_9 h => exact mnemonic_decodeClass8_congr (hn h)
  case h_15 h => exact mnemonic_decodeClassE_congr (hkk (by simp [h]))
  case h_16 =>
    have hF : fieldClass m = 0xF := by
      have := nibble_cases (fieldClass m)
      simp_all
    exact mnemonic_decodeClassF_congr (hkk (by simp [hF]))
  all_goals rfl

end Congr

/-- The map's own words: each row's match decodes to the row's mnemonic, and its mask fixes the fields that the decoder
dispatches on there. -/
theorem opcodeMap_rows : ∀ r ∈ opcodeMap, (decodeWord r.2.2).mnemonic = r.1 ∧
    (r.2.1 = 0xF0FF ∨ r.2.1 = 0xF00F ∧ fieldClass r.2.2 = 0x8 ∨
      r.2.1 = 0xF000 ∧ fieldClass r.2.2 ∉ [0x0, 0x8, 0xE, 0xF]) := by
  decide

/-- A row that matches a word has the mnemonic of the decoded instruction. -/
theorem mnemonic_of_row_match {op : Word} {r : String × Word × Word} (hr : r ∈ opcodeMap) (h : op &&& r.2.1 = r.2.2) :
    (decodeWord op).mnemonic = r.1 := by
  obtain ⟨hown, hmask⟩ := opcodeMap_rows r hr
  rw [← hown]
  obtain hmask | ⟨hmask, h8⟩ | ⟨hmask, hother⟩ := hmask <;> rw [hmask] at h
  · obtain ⟨hcls, -, hy, hn⟩ := (and_F0FF_eq op _).mp h
    exact mnemonic_decodeWord_congr hcls (fun _ => hn) fun _ => by
      simp only [Machine.fieldKK_eq_fieldY_append_fieldN, hy, hn]
  · obtain ⟨hcls, -, -, hn⟩ := (and_F00F_eq op _).mp h
    exact mnemonic_decodeWord_congr hcls (fun _ => hn) fun h => absurd h (by rw [h8]; decide)
  · obtain ⟨hcls, -⟩ := (and_F000_eq op _).mp h
    simp only [List.mem_cons, List.not_mem_nil, or_false, not_or] at hother
    obtain ⟨h0, h8, hE, hF⟩ := hother
    exact mnemonic_decodeWord_congr hcls (fun h => absurd h h8) fun h => by simp_all

/-! What the masks of R96 leave of a word, as a number. -/

theorem toNat_and_F000 (op : Word) : (op &&& 0xF000#16).toNat = op.toNat / 4096 * 4096 := by
  conv_lhs => rw [word_eq_fields op, show 0xF000#16 = formR 0xF 0 0 0 from rfl, formR_and]
  simp [toNat_formR]

theorem toNat_and_F00F (op : Word) : (op &&& 0xF00F#16).toNat = op.toNat / 4096 * 4096 + op.toNat % 16 := by
  conv_lhs => rw [word_eq_fields op, show 0xF00F#16 = formR 0xF 0 0 0xF from rfl, formR_and]
  simp [toNat_formR]

theorem toNat_and_F0FF (op : Word) : (op &&& 0xF0FF#16).toNat = op.toNat / 4096 * 4096 + op.toNat % 256 := by
  conv_lhs => rw [word_eq_fields op, show 0xF0FF#16 = formR 0xF 0 0xF 0xF from rfl, formR_and]
  simp [toNat_formR]
  omega

/-- A word of no row is in R97's table: in each class the rows leave out the table's words, compared as numbers. -/
theorem unrecognisedWord_of_no_row {op : Word} (h : ∀ r ∈ opcodeMap, op &&& r.2.1 ≠ r.2.2) :
    unrecognisedWord op = true := by
  have hop := op.isLt
  simp only [opcodeMap, List.forall_mem_append, List.forall_mem_cons, List.not_mem_nil, false_implies, implies_true,
    and_true, ne_eq, ← BitVec.toNat_inj, BitVec.ofNat_eq_ofNat, BitVec.toNat_ofNat, toNat_and_F000, toNat_and_F00F,
    toNat_and_F0FF] at h
  simp only [unrecognisedWord, List.mem_cons, List.not_mem_nil, or_false]
  split_ifs with h0 h8 hE hF
  · simp [h0] at h
    exact decide_eq_true (by omega)
  · simp [h8] at h
    exact decide_eq_true (by omega)
  · simp [hE] at h
    exact decide_eq_true (by omega)
  · simp [hF] at h
    exact decide_eq_true (by omega)
  · omega

theorem opcodeMap_names_nodup : (opcodeMap.map Prod.fst).Nodup := by decide

theorem opcodeMap_names_ne_unrecognised : ∀ r ∈ opcodeMap, r.1 ≠ "Unrecognised" := by decide

/-- The row of a mnemonic: every word that decodes to the mnemonic matches it. -/
theorem row_match_of_mnemonic {op : Word} {r : String × Word × Word} (hr : r ∈ opcodeMap)
    (h : (decodeWord op).mnemonic = r.1) : op &&& r.2.1 = r.2.2 := by
  by_contra hno
  have hnone : ∀ q ∈ opcodeMap, op &&& q.2.1 ≠ q.2.2 := fun q hq hmatch => by
    have hname : q.1 = r.1 := (mnemonic_of_row_match hq hmatch).symm.trans h
    obtain rfl := List.inj_on_of_nodup_map opcodeMap_names_nodup hq hr hname
    exact hno hmatch
  rw [(decodeWord_eq_unrecognised_iff op).mpr (unrecognisedWord_of_no_row hnone)] at h
  exact opcodeMap_names_ne_unrecognised r hr h.symm

/-- A word is unrecognised exactly when no row matches it. -/
theorem no_row_iff (op : Word) : (∀ r ∈ opcodeMap, op &&& r.2.1 ≠ r.2.2) ↔ decodeWord op = .unrecognised op := by
  constructor
  · exact fun h => (decodeWord_eq_unrecognised_iff op).mpr (unrecognisedWord_of_no_row h)
  · intro h r hr hmatch
    have hname := mnemonic_of_row_match hr hmatch
    rw [h] at hname
    exact opcodeMap_names_ne_unrecognised r hr hname.symm

/-- Settles O2: a row that matches gives its mnemonic, no two rows share one, and a word of no row is in R97's table. -/
theorem decodeFollowsOpcodeMap : Obligations.DecodeFollowsOpcodeMap :=
  fun op => ⟨decodeWord_wellFormed op, fun _ hr => ⟨mnemonic_of_row_match hr, row_match_of_mnemonic hr⟩, no_row_iff op⟩

end Sys2Proof
end

section
/-! The unrecognised words (30_encoding.md R97): how many there are in each class, and that they are no-ops
(40_step_cycle.md R126). -/

namespace Sys2Proof

open Machine

/-- Whether the word is unrecognised is the same for every x nibble. -/
theorem unrecognisedWord_formI (cls x : Nibble) (kk : Byte) :
    unrecognisedWord (formI cls x kk) = unrecognisedWord (formI cls 0 kk) := by
  rw [Bool.eq_iff_iff]
  simp only [unrecognisedWord_iff, fieldClass_formI, fieldKK_formI, fieldN_formI]

/-- R97's counts for each class at the x nibble 0. -/
theorem countP_unrecognisedWord (cls : Nibble) :
    (List.range 256).countP (fun kk => unrecognisedWord (formI cls 0 (BitVec.ofNat 8 kk))) =
      if cls = 0x0 then 254 else if cls = 0x8 then 16 * 7
      else if cls = 0xE then 254 else if cls = 0xF then 247 else 0 := by
  revert cls
  decide +kernel

theorem unrecognisedCount_eq (cls x : Nibble) : unrecognisedCount cls x =
    if cls = 0x0 then 254 else if cls = 0x8 then 16 * 7
    else if cls = 0xE then 254 else if cls = 0xF then 247 else 0 := by
  rw [← countP_unrecognisedWord, unrecognisedCount]
  refine List.countP_congr fun kk _ => ?_
  rw [decide_eq_true_iff, decodeWord_eq_unrecognised_iff, unrecognisedWord_formI]

/-- Settles O3: the table is the well-formedness check's, the counts do not depend on the x nibble, and the step is the
no-op's. -/
theorem unrecognisedWordsAreTheTabulatedNoOps : Obligations.UnrecognisedWordsAreTheTabulatedNoOps := by
  refine ⟨fun op => ?table, unrecognisedCount_eq, ?total, rfl, fun s h => ?noop⟩
  case table => rw [decodeWord_eq_unrecognised_iff, unrecognisedWord_iff]
  case total =>
    simp only [unrecognisedCount_eq]
    decide
  case noop =>
    rw [step_eq_exec_nextInstr, h]
    rfl

/-- Settles O21: the meaning of an unrecognised word does not look at it, and a word of no row is decoded as
unrecognised. -/
theorem unrecognisedWordIsANoOp : Obligations.UnrecognisedWordIsANoOp := by
  refine ⟨fun w s => rfl, fun s h => ?_⟩
  rw [step, (no_row_iff _).mp h]
  rfl

/-- Settles O5: the decoder computes each row of R103. -/
theorem workedEncodingsDecode : Obligations.WorkedEncodingsDecode :=
  ⟨rfl, rfl, rfl, rfl, rfl, rfl, rfl, rfl, rfl, rfl, rfl, rfl, rfl, rfl, rfl, rfl, rfl⟩

end Sys2Proof
end

section
/-! Encoding what a word decodes to (30_encoding.md R98, R101). -/

namespace Sys2Proof

/-! A word is the form of its own fields. -/

theorem formI_of_fieldClass {op : Word} {cls : Nibble} (h : fieldClass op = cls) :
    formI cls (fieldX op) (fieldKK op) = op := by
  subst h
  apply BitVec.eq_of_toNat_eq
  have := op.isLt
  simp only [toNat_formI, toNat_fieldClass, toNat_fieldX, toNat_fieldKK]
  omega

theorem formA_of_fieldClass {op : Word} {cls : Nibble} (h : fieldClass op = cls) :
    formA cls (fieldNNN op) = op := by
  subst h
  apply BitVec.eq_of_toNat_eq
  have := op.isLt
  simp only [toNat_formA, toNat_fieldClass, toNat_fieldNNN]
  omega

theorem formI_of_fieldClass_fieldKK {op : Word} {cls : Nibble} {kk : Byte} (h : fieldClass op = cls)
    (hkk : fieldKK op = kk) : formI cls (fieldX op) kk = op := hkk ▸ formI_of_fieldClass h

theorem formR_of_fieldClass_fieldN {op : Word} {cls n : Nibble} (h : fieldClass op = cls) (hn : fieldN op = n) :
    formR cls (fieldX op) (fieldY op) n = op := by
  subst h hn
  exact (word_eq_fields op).symm

/-! The complements of R98's ignored bits clear the nibble that its table names. -/

theorem and_not_0F00 (op : Word) : op &&& ~~~0x0F00 = formI (fieldClass op) 0 (fieldKK op) := by
  apply BitVec.eq_of_toNat_eq
  rw [show ~~~(0x0F00 : Word) = 0xF0FF#16 from rfl, toNat_and_F0FF, toNat_formI]
  simp

theorem and_not_00F0 (op : Word) : op &&& ~~~0x00F0 = formR (fieldClass op) (fieldX op) 0 (fieldN op) := by
  conv_lhs => rw [word_eq_fields op, show ~~~(0x00F0 : Word) = formR 0xF 0xF 0 0xF from rfl, formR_and]
  simp

theorem and_not_000F (op : Word) : op &&& ~~~0x000F = formR (fieldClass op) (fieldX op) (fieldY op) 0 := by
  conv_lhs => rw [word_eq_fields op, show ~~~(0x000F : Word) = formR 0xF 0xF 0xF 0 from rfl, formR_and]
  simp

/-- R98's table in the terms of the fields: the word with its ignored bits zero. -/
theorem and_not_ignoredBits (op : Word) : op &&& ~~~ ignoredBits op =
    if fieldClass op = 0x0 ∧ (fieldKK op = 0xE0 ∨ fieldKK op = 0xEE) then formI (fieldClass op) 0 (fieldKK op)
    else if fieldClass op = 0x5 ∨ fieldClass op = 0x9 then formR (fieldClass op) (fieldX op) (fieldY op) 0
    else if fieldClass op = 0x8 ∧ (fieldN op = 0x6 ∨ fieldN op = 0xE) then
      formR (fieldClass op) (fieldX op) 0 (fieldN op)
    else op := by
  have hop := op.isLt
  have h0 : (op &&& 0xF0FF = 0x00E0 ∨ op &&& 0xF0FF = 0x00EE) ↔
      fieldClass op = 0x0 ∧ (fieldKK op = 0xE0 ∨ fieldKK op = 0xEE) := by
    simp only [← BitVec.toNat_inj, BitVec.ofNat_eq_ofNat, BitVec.toNat_ofNat, toNat_and_F0FF, toNat_fieldClass,
      toNat_fieldKK]
    omega
  have h5 : (op &&& 0xF000 = 0x5000 ∨ op &&& 0xF000 = 0x9000) ↔ fieldClass op = 0x5 ∨ fieldClass op = 0x9 := by
    simp only [← BitVec.toNat_inj, BitVec.ofNat_eq_ofNat, BitVec.toNat_ofNat, toNat_and_F000, toNat_fieldClass]
    omega
  have h8 : (op &&& 0xF00F = 0x8006 ∨ op &&& 0xF00F = 0x800E) ↔
      fieldClass op = 0x8 ∧ (fieldN op = 0x6 ∨ fieldN op = 0xE) := by
    simp only [← BitVec.toNat_inj, BitVec.ofNat_eq_ofNat, BitVec.toNat_ofNat, toNat_and_F00F, toNat_fieldClass,
      toNat_fieldN]
    omega
  simp only [ignoredBits, h0, h5, h8]
  split_ifs
  · exact and_not_0F00 op
  · exact and_not_000F op
  · exact and_not_00F0 op
  · exact BitVec.and_allOnes

section Classes

variable {op : Word}

/-- Class 0: Clear and Return keep the class and the low byte, an unrecognised word is its own encoding. -/
theorem encodeWord_decodeClass0 (h : fieldClass op = 0x0) :
    encodeWord (decodeClass0 op) = op &&& ~~~ ignoredBits op := by
  rw [and_not_ignoredBits, decodeClass0]
  split
  case h_1 hkk => rw [if_pos ⟨h, .inl hkk⟩, h, hkk]; decide
  case h_2 hkk => rw [if_pos ⟨h, .inr hkk⟩, h, hkk]; decide
  case h_3 => simp_all [encodeWord]

/-- Class 8: the shifts lose the y nibble, the other words nothing. -/
theorem encodeWord_decodeClass8 (h : fieldClass op = 0x8) :
    encodeWord (decodeClass8 op) = op &&& ~~~ ignoredBits op := by
  rw [and_not_ignoredBits, decodeClass8]
  split
  case h_7 hn => simp [h, hn, encodeWord]
  case h_9 hn => simp [h, hn, encodeWord]
  case h_10 => simp_all [encodeWord]
  all_goals
    rename_i hn
    simp [h, hn, encodeWord, formR_of_fieldClass_fieldN]

/-- Class 0xE: nothing is lost. -/
theorem encodeWord_decodeClassE (h : fieldClass op = 0xE) :
    encodeWord (decodeClassE op) = op &&& ~~~ ignoredBits op := by
  rw [and_not_ignoredBits, decodeClassE]
  split
  case h_3 => simp [h, encodeWord]
  all_goals
    rename_i hkk
    simp [h, hkk, encodeWord, formI_of_fieldClass_fieldKK]

/-- Class 0xF: nothing is lost. -/
theorem encodeWord_decodeClassF (h : fieldClass op = 0xF) :
    encodeWord (decodeClassF op) = op &&& ~~~ ignoredBits op := by
  rw [and_not_ignoredBits, decodeClassF]
  split
  case h_10 => simp [h, encodeWord]
  all_goals
    rename_i hkk
    simp [h, hkk, encodeWord, formI_of_fieldClass_fieldKK]

end Classes

/-- The other classes lose the low nibble of the register skips and else nothing: the form of the word's own fields is
the word. -/
theorem encodeWord_decodeWord (op : Word) : encodeWord (decodeWord op) = op &&& ~~~ ignoredBits op := by
  unfold decodeWord
  split
  case h_1 h => exact encodeWord_decodeClass0 h
  case h_9 h => exact encodeWord_decodeClass8 h
  case h_15 h => exact encodeWord_decodeClassE h
  case h_16 =>
    have := nibble_cases (fieldClass op)
    exact encodeWord_decodeClassF (by simp_all)
  all_goals
    rename_i h
    simp [and_not_ignoredBits, h, encodeWord, formA_of_fieldClass, formI_of_fieldClass, formR_of_fieldClass_fieldN]

/-- Settles O4: the re-encoded word is the word of a well-formed instruction, so it decodes to it. -/
theorem canonicalWordClearsOnlyIgnoredBits : Obligations.CanonicalWordClearsOnlyIgnoredBits :=
  fun op => ⟨encodeWord_decodeWord op, decodeWord_encodeWord (decodeWord_wellFormed op)⟩

end Sys2Proof
end

section
/-! Frames: what each instruction leaves alone, by the write column of 10_state.md R36. -/

namespace Sys2Proof.Machine

/-- A draw changes VF and the cells under its sprite alone. -/
theorem get_effect_drawSprite {s : State} {x y : RegIdx} {n : Nibble} {l : Loc} (hvf : l ≠ .reg 0xF)
    (hcell : ∀ r c, l = .pixel r c → ¬ s.underSprite x y n r c) :
    ((Instr.drawSprite x y n).effect s).get l = s.get l := by
  refine (get_setReg hvf _ _).trans ?_
  cases l with
  | pixel r c => exact congrArg BitVec.toNat (s.drawn_of_not_underSprite (hcell r c rfl))
  | _ => rfl

/-- Apart from pc, an instruction changes no place outside its write set. -/
theorem get_effect {i : Instr} {s : State} {l : Loc} (hpc : l ≠ .pc) (h : ¬ i.writes s l) :
    (i.effect s).get l = s.get l := by
  cases i with
  | clear => exact get_setFb (fun r c hl => h (.inr ⟨r, c, hl⟩)) s _
  | ret => exact get_popPc ⟨fun hl => h (.inr hl), hpc⟩ s
  | call _ => exact get_push s ⟨fun hl => h (.inr (.inl hl)), fun hl => h (.inr (.inr hl))⟩ _
  | loadImm _ _ | addImm _ _ | copy _ _ | or _ _ | and _ _ | xor _ _ | readDelayTimer _ =>
    exact get_setReg (fun hl => h (.inr hl)) s _
  | addCarry _ _ | subBorrow _ _ | shiftRight _ | revSubBorrow _ _ | shiftLeft _ =>
    exact get_setResultAndFlag ⟨fun hl => h (.inr (.inl hl)), fun hl => h (.inr (.inr hl))⟩ s _ _
  | setIndex _ | addIndex _ | setIndexToDigitSprite _ => exact get_setIndexReg (fun hl => h (.inr hl)) s _
  | random _ _ => exact get_randomWith ⟨fun hl => h (.inr (.inl hl)), fun hl => h (.inr (.inr hl))⟩ _ _ s
  | drawSprite _ _ _ =>
    exact get_effect_drawSprite (fun hl => h (.inr (.inl hl))) fun r c hl hu => h (.inr (.inr ⟨r, c, hl, hu⟩))
  | waitForKey x =>
    simp only [Instr.effect]
    split
    · next hkey => exact get_setReg (fun hl => h ⟨hkey, .inr hl⟩) s _
    · rfl
  | setDelayTimer _ => exact get_setDt (fun hl => h (.inr hl)) s _
  | setSoundTimer _ => exact get_setSt (fun hl => h (.inr hl)) s _
  | storeBCD _ => exact get_storeBytes s _ _ fun a hl k hk hea => h (.inr ⟨a, hl, k, hk, hea⟩)
  | storeRegisters x =>
    refine get_storeBytes s _ _ fun a hl k hk hea => h (.inr ⟨a, hl, k, ?_, hea⟩)
    rw [State.length_regsUpTo] at hk
    exact Nat.lt_succ_iff.mp hk
  | loadRegisters x =>
    have hx : x.toNat < 16 := x.isLt
    refine get_setRegsFrom s _ (by rw [Memory.length_readBytes]; omega) fun r hl hr => h (.inr ⟨r, hl, ?_⟩)
    rw [Memory.length_readBytes] at hr
    exact Nat.lt_succ_iff.mp hr
  | _ => rfl

/-- pc is in every write set but that of a WaitForKey without a key, which leaves it. -/
theorem pcAfter_of_not_writes_pc {i : Instr} {s : State} (h : ¬ i.writes s .pc) : i.pcAfter s = s.pc := by
  cases i with
  | waitForKey x => exact if_neg fun hkey => h ⟨hkey, .inl rfl⟩
  | jump _ | jumpIndexed _ | skipEqImm _ _ | skipNeqImm _ _ | skipEqReg _ _ | skipNeqReg _ _ | skipKeyPressed _
  | skipKeyNotPressed _ | unrecognised _ => exact absurd rfl h
  | _ => exact absurd (.inl rfl) h

/-- The frame of every instruction. -/
theorem onlyChanges_effect (i : Instr) (s : State) :
    OnlyChanges (i.writes s) s ((i.effect s).setPc (i.pcAfter s)) := by
  intro l hl
  by_cases hpc : l = .pc
  · subst hpc
    exact congrArg BitVec.toNat (pcAfter_of_not_writes_pc hl)
  · exact (get_setPc hpc _ _).trans (get_effect hpc hl)

/-- Settles O17: the outcome of every instruction, with its frame. -/
theorem instructionsWriteOnlyTheirWriteSet : Obligations.InstructionsWriteOnlyTheirWriteSet :=
  fun i s => ⟨_, exec_eq i s, onlyChanges_effect i s⟩

/-- Settles O9: the table of pc outcomes, instruction by instruction. -/
theorem everyInstructionLeavesPcAsTabulated : Obligations.EveryInstructionLeavesPcAsTabulated := exec_pc

/-- Settles O6: two bytes decode to the instruction of their word, and that word is the one STEP fetches. -/
theorem stepRunsTheDecodedInstruction : Obligations.StepRunsTheDecodedInstruction := by
  intro s i rest h
  cases h
  rfl

end Sys2Proof.Machine
end

section
/-! The flag (10_state.md R22): what the six instructions that write VF last leave in it. -/

namespace Sys2Proof.Machine

theorem flagByte_eq_zero_or_one (b : Bool) : flagByte b = 0x00 ∨ flagByte b = 0x01 := by
  cases b
  · exact .inl rfl
  · exact .inr rfl

/-- The bit that ShiftRight shifts out (42_alu.md R168). -/
theorem toNat_shiftRightFlag (a : Byte) : (shiftRightFlag a).toNat = a.toNat % 2 := by
  rw [shiftRightFlag, BitVec.toNat_and]
  exact Nat.and_one_is_mod a.toNat

/-- The bit that ShiftLeft shifts out (R170). -/
theorem toNat_shiftLeftFlag (a : Byte) : (shiftLeftFlag a).toNat = a.toNat / 128 := by
  rw [shiftLeftFlag, BitVec.toNat_ushiftRight, Nat.shiftRight_eq_div_pow]

theorem eq_zero_or_one_of_toNat_lt_two {b : Byte} (h : b.toNat < 2) : b = 0x00 ∨ b = 0x01 := by
  simp only [← BitVec.toNat_inj, BitVec.ofNat_eq_ofNat, BitVec.toNat_ofNat]
  omega

/-- VF after a result and a flag are written is the flag, whatever the destination (40_step_cycle.md R125). -/
theorem vf_setResultAndFlag (s : State) (x : RegIdx) (result flag : Byte) :
    (s.setResultAndFlag x result flag).reg 0xF = flag :=
  (State.reg_setResultAndFlag s x 0xF result flag).trans (if_pos rfl)

/-- A flag-writing instruction leaves 0 or 1 in VF. -/
theorem vf_effect_of_flagWriter {i : Instr} (s : State)
    (h : i.mnemonic ∈ ["AddCarry", "SubBorrow", "ShiftRight", "RevSubBorrow", "ShiftLeft", "DrawSprite"]) :
    (i.effect s).reg 0xF = 0x00 ∨ (i.effect s).reg 0xF = 0x01 := by
  cases i with
  | addCarry x y | subBorrow x y | revSubBorrow x y =>
    simp only [Instr.effect, vf_setResultAndFlag]
    exact flagByte_eq_zero_or_one _
  | shiftRight x =>
    refine eq_zero_or_one_of_toNat_lt_two ?_
    rw [Instr.effect, vf_setResultAndFlag, toNat_shiftRightFlag]
    omega
  | shiftLeft x =>
    refine eq_zero_or_one_of_toNat_lt_two ?_
    rw [Instr.effect, vf_setResultAndFlag, toNat_shiftLeftFlag]
    omega
  | drawSprite x y n =>
    simp only [Instr.effect, flagReg_eq, State.reg_setReg_self]
    exact flagByte_eq_zero_or_one _
  | _ => exact absurd h (by simp [Instr.mnemonic])

/-- Settles O20: the flag writers by their flags, every other instruction by its frame. -/
theorem flagIsZeroOrOneAndOtherwiseUntouched : Obligations.FlagIsZeroOrOneAndOtherwiseUntouched := by
  intro i s t h
  obtain rfl := eq_of_exec h
  split
  case isTrue hflag => exact vf_effect_of_flagWriter s hflag
  case isFalse =>
    by_cases hw : i.writes s (.reg 0xF)
    · exact .inr hw
    · exact .inl (reg_eq_of_get (onlyChanges_effect i s _ hw))

end Sys2Proof.Machine
end

section
/-! Quiescent states (70_reset_and_hazards.md R326): which instructions can leave the whole state as it is. -/

namespace Sys2Proof.Machine

/-- The target of a JumpIndexed needs no more than 16 bits: 0xFFF + 0xFF = 0x10FE (41_control_flow.md R147). -/
theorem toNat_addrOperand_add_regWide (nnn : Addr12) (s : State) (x : RegIdx) :
    (addrOperand nnn + s.regWide x).toNat = nnn.toNat + (s.reg x).toNat := by
  have := nnn.isLt
  have := (s.reg x).isLt
  rw [BitVec.toNat_add, toNat_addrOperand, toNat_regWide]
  exact Nat.mod_eq_of_lt (by omega)

theorem add_two_ne_self (pc : Word) : pc + 2 ≠ pc := by simp

/-- An instruction that leaves the whole state as it is leaves pc, and at Call and Return SP as well. -/
theorem quiescent_of_exec {i : Instr} {s : State} (h : exec i s = .next s) :
    (∃ nnn, i = .jump nnn ∧ s.pc.toNat = nnn.toNat) ∨
    (∃ nnn, i = .jumpIndexed nnn ∧ nnn.toNat + (s.reg 0).toNat = s.pc.toNat) ∨
    (∃ x, i = .waitForKey x ∧ s.lastKey.toNat ≥ 16) := by
  have hs := eq_of_exec h
  have hpc : i.pcAfter s = s.pc := congrArg State.pc hs.symm
  cases i with
  | ret =>
    have hsp : s.sp - 1 = s.sp := congrArg State.sp hs.symm
    exact absurd hsp (by simp)
  | call nnn =>
    have hsp : s.sp + 1 = s.sp := congrArg State.sp hs.symm
    exact absurd hsp (by simp)
  | jump nnn =>
    refine .inl ⟨nnn, rfl, ?_⟩
    rw [← hpc]
    exact toNat_addrOperand nnn
  | jumpIndexed nnn =>
    refine .inr (.inl ⟨nnn, rfl, ?_⟩)
    rw [← hpc]
    exact (toNat_addrOperand_add_regWide nnn s 0).symm
  | skipEqImm _ _ | skipNeqImm _ _ | skipEqReg _ _ | skipNeqReg _ _ | skipKeyPressed _ | skipKeyNotPressed _ =>
    simp only [Instr.pcAfter] at hpc
    split at hpc <;> simp at hpc
  | waitForKey x =>
    refine .inr (.inr ⟨x, rfl, not_lt.mp fun hkey => ?_⟩)
    exact absurd ((if_pos (Nat.lt_succ_iff.mp hkey)).symm.trans hpc) (add_two_ne_self s.pc)
  | _ => exact absurd hpc (add_two_ne_self s.pc)

/-- Settles O11: a quiescent step is one of the three; and each of the three writes pc with what it holds, or
nothing. -/
theorem quiescentStatesAreTheThreeKinds : Obligations.QuiescentStatesAreTheThreeKinds := by
  intro s
  refine ⟨quiescent_of_exec, ?_⟩
  rintro (⟨nnn, hi, hpc⟩ | ⟨nnn, hi, hpc⟩ | ⟨x, hi, hkey⟩) <;> rw [step_eq_exec_nextInstr, hi]
  · have htarget : addrOperand nnn = s.pc := BitVec.eq_of_toNat_eq ((toNat_addrOperand nnn).trans hpc.symm)
    rw [exec_jump, htarget]
    rfl
  · have htarget : addrOperand nnn + s.regWide 0 = s.pc :=
      BitVec.eq_of_toNat_eq ((toNat_addrOperand_add_regWide nnn s 0).trans hpc)
    rw [exec_jumpIndexed, htarget]
    rfl
  · exact exec_waitForKey_of_noKey hkey x

end Sys2Proof.Machine
end

section
/-! The places are all of the state (10_state.md R20), and what the frame buffer and the registers are made of. -/

namespace Sys2Proof.Machine

theorem v_eq_of_reg {s t : State} (h : ∀ r, s.reg r = t.reg r) : s.v = t.v := by
  refine Vector.ext fun k hk => ?_
  have hr := h (BitVec.ofNat 4 k)
  simpa only [State.reg, BitVec.toNat_ofNat, Nat.mod_eq_of_lt hk] using hr

theorem stack_eq_of_stackAt {s t : State} (h : ∀ k, s.stackAt k = t.stackAt k) : s.stack = t.stack := by
  refine Vector.ext fun k hk => ?_
  have hr := h (BitVec.ofNat 4 k)
  simpa only [State.stackAt, BitVec.toNat_ofNat, Nat.mod_eq_of_lt hk] using hr

theorem key_eq_of_keyDown {s t : State} (h : ∀ k, s.keyDown k = t.keyDown k) : s.key = t.key := by
  refine Vector.ext fun k hk => ?_
  have hr := h (BitVec.ofNat 4 k)
  simpa only [State.keyDown, BitVec.toNat_ofNat, Nat.mod_eq_of_lt hk] using hr

theorem fb_eq_of_pixel {s t : State} (h : ∀ r c, s.pixel r c = t.pixel r c) : s.fb = t.fb :=
  Vector.ext fun r hr => Vector.ext fun c hc => h ⟨r, hr⟩ ⟨c, hc⟩

/-- Canonical memories with the same byte at every address are equal. -/
theorem mem_eq_of_byteAt {s t : State} (hs : s.mem.wf) (ht : t.mem.wf) (h : ∀ a, s.byteAt a = t.byteAt a) :
    s.mem = t.mem := by
  refine Memory.ext_of_wf hs ht fun a ha => ?_
  have hea : ea (BitVec.ofNat 16 a) = a := by
    simp only [Config.memSize] at ha
    simp only [ea, Config.memSize, BitVec.toNat_ofNat]
    omega
  simpa only [State.byteAt, hea] using h (BitVec.ofNat 16 a)

/-- Settles O16, item by item. -/
theorem statesAreDeterminedByTheirPlaces : Obligations.StatesAreDeterminedByTheirPlaces := by
  intro s t hs ht h
  have hv := v_eq_of_reg fun r => reg_eq_of_get (h (.reg r))
  have hstack := stack_eq_of_stackAt fun k => stackAt_eq_of_get (h (.stack k))
  have hmem := mem_eq_of_byteAt hs ht fun a => byteAt_eq_of_get (h (.mem a))
  have hfb := fb_eq_of_pixel fun r c => pixel_eq_of_get (h (.pixel r c))
  have hkey := key_eq_of_keyDown fun k => keyDown_eq_of_get (h (.key k))
  cases s
  cases t
  rw [State.mk.injEq]
  exact ⟨hv, index_eq_of_get (h .index), pc_eq_of_get (h .pc), sp_eq_of_get (h .sp), hstack, hmem, hfb, hkey,
    lastKey_eq_of_get (h .lastKey), dt_eq_of_get (h .dt), st_eq_of_get (h .st), h .draws⟩

end Sys2Proof.Machine
end

section
/-! The memory instructions (43_index_memory.md R193 to R196). -/

namespace Sys2Proof.Machine

theorem length_regsUpTo_le (s : State) (x : RegIdx) : (s.regsUpTo x).length ≤ 4096 := by
  have := x.isLt
  rw [State.length_regsUpTo]
  omega

theorem bcdDigits_length_le (a : Byte) : (bcdDigits a).length ≤ 4096 := by simp [bcdDigits]

/-- Settles O34: the digits are the three bytes stored from I. -/
theorem storeBcdWritesThreeDigits : Obligations.StoreBcdWritesThreeDigits := by
  intro x s hwf
  have hbyte {k : Nat} (hk : k < 3) :
      (s.storeBytes s.index (bcdDigits (s.reg x))).byteAt (s.index + BitVec.ofNat 16 k) = (bcdDigits (s.reg x))[k] :=
    byteAt_storeBytes_of_lt hwf s.index (bcdDigits_length_le _) hk
  refine ⟨_, exec_storeBCD s x, ?hundreds, ?tens, ?ones, rfl, onlyChanges_effect (.storeBCD x) s⟩
  case hundreds =>
    have h := hbyte (k := 0) (by decide)
    rw [BitVec.add_zero] at h
    rw [State.byteAt_setPc, h]
    exact BitVec.toNat_udiv
  case tens =>
    rw [State.byteAt_setPc, show s.index + 1 = s.index + BitVec.ofNat 16 1 from rfl, hbyte (by decide)]
    exact BitVec.toNat_umod
  case ones =>
    rw [State.byteAt_setPc, show s.index + 2 = s.index + BitVec.ofNat 16 2 from rfl, hbyte (by decide)]
    exact BitVec.toNat_umod

/-- Byte r of what StoreRegisters stored is Vr. -/
theorem byteAt_storeRegisters {s : State} (hwf : s.mem.wf) {x r : RegIdx} (hr : r.toNat ≤ x.toNat) :
    (s.storeBytes s.index (s.regsUpTo x)).byteAt (s.indexPlus r.toNat) = s.reg r := by
  have hlt : r.toNat < (s.regsUpTo x).length := by
    rw [State.length_regsUpTo]
    omega
  rw [State.indexPlus, byteAt_storeBytes_of_lt hwf s.index (length_regsUpTo_le s x) hlt, State.getElem_regsUpTo,
    BitVec.ofNat_toNat, BitVec.setWidth_eq]

/-- Settles O35: the bytes stored are V0 to Vx, and the frame is the write column's. -/
theorem storeRegistersWritesV0ToVx : Obligations.StoreRegistersWritesV0ToVx :=
  fun x s hwf => ⟨_, exec_storeRegisters s x, fun _ hr => byteAt_storeRegisters hwf hr, rfl,
    onlyChanges_effect (.storeRegisters x) s⟩

/-- Register r after LoadRegisters is the byte at I + r. -/
theorem reg_effect_loadRegisters (s : State) {x r : RegIdx} (hr : r.toNat ≤ x.toNat) :
    ((Instr.loadRegisters x).effect s).reg r = s.byteAt (s.indexPlus r.toNat) := by
  have hx : x.toNat < 16 := x.isLt
  have hlen : (s.mem.readBytes s.index (x.toNat + 1)).length = x.toNat + 1 := Memory.length_readBytes _ _ _
  rw [Instr.effect, State.reg_setRegsFrom s 0 _ (by simp; omega), dif_pos (by simp; omega), Memory.getElem_readBytes]
  rfl

/-- Settles O36: the bytes read go to V0 to Vx, and the frame is the write column's. -/
theorem loadRegistersReadsV0ToVx : Obligations.LoadRegistersReadsV0ToVx :=
  fun x s => ⟨_, exec_loadRegisters s x, fun _ hr => reg_effect_loadRegisters s hr, rfl,
    onlyChanges_effect (.loadRegisters x) s⟩

/-- Settles O37: the load reads the bytes that the store wrote. -/
theorem storeThenLoadRestoresRegisters : Obligations.StoreThenLoadRestoresRegisters := by
  intro x s t u w hwf hst hmem hindex huw r hr
  obtain rfl := eq_of_exec hst
  obtain rfl := eq_of_exec huw
  have hload := reg_effect_loadRegisters u hr
  rw [State.byteAt, hmem, State.indexPlus, hindex] at hload
  exact hload.trans (byteAt_storeRegisters hwf hr)

/-- Settles O12: V0 and V1 stand at pc + 2 and pc + 3 after the store, where pc points then. -/
theorem storesAreSeenByTheNextFetch : Obligations.StoresAreSeenByTheNextFetch := by
  intro s x hwf hi hx hindex
  obtain ⟨t, ht, hbytes, hpc, -⟩ := storeRegistersWritesV0ToVx x s hwf
  have h₀ : t.byteAt t.pc = s.reg 0 := by
    rw [hpc, ← hindex]
    simpa [State.indexPlus] using hbytes 0 (Nat.zero_le _)
  have h₁ : t.byteAt (t.pc + 1) = s.reg 1 := by
    rw [hpc, ← hindex]
    exact hbytes 1 hx
  exact ⟨t, by rw [step_eq_exec_nextInstr, hi, ht], step_eq_exec_of_bytes h₀ h₁⟩

end Sys2Proof.Machine
end

section
/-! The read column of 10_state.md R36: what an instruction writes is a function of what its read set names. -/

namespace Sys2Proof.Machine

/-- Two states hold the same in every place of a set. -/
def AgreeOn (p : Loc → Prop) (s₁ s₂ : State) : Prop := ∀ l, p l → s₁.get l = s₂.get l

section Agree

variable {p : Loc → Prop} {s₁ s₂ : State} (h : AgreeOn p s₁ s₂)

include h

theorem AgreeOn.reg {x : RegIdx} (hp : p (.reg x)) : s₁.reg x = s₂.reg x := reg_eq_of_get (h _ hp)
theorem AgreeOn.index (hp : p .index) : s₁.index = s₂.index := index_eq_of_get (h _ hp)
theorem AgreeOn.pc (hp : p .pc) : s₁.pc = s₂.pc := pc_eq_of_get (h _ hp)
theorem AgreeOn.sp (hp : p .sp) : s₁.sp = s₂.sp := sp_eq_of_get (h _ hp)
theorem AgreeOn.lastKey (hp : p .lastKey) : s₁.lastKey = s₂.lastKey := lastKey_eq_of_get (h _ hp)

end Agree

/-- The next pc depends on the read set alone. -/
theorem pcAfter_congr {i : Instr} {s₁ s₂ : State} (h : AgreeOn (i.reads s₁) s₁ s₂) : i.pcAfter s₁ = i.pcAfter s₂ := by
  cases i with
  | ret =>
    have hsp := h.sp (.inl rfl)
    have hentry := stackAt_eq_of_get (h (.stack (s₁.sp - 1)) (.inr rfl))
    simp only [Instr.pcAfter]
    rw [hentry, hsp]
  | jump _ | call _ => rfl
  | jumpIndexed _ => simp only [Instr.pcAfter, State.regWide, h.reg rfl]
  | skipEqImm _ _ | skipNeqImm _ _ => simp only [Instr.pcAfter, h.pc (.inl rfl), h.reg (.inr rfl)]
  | skipEqReg _ _ | skipNeqReg _ _ =>
    simp only [Instr.pcAfter, h.pc (.inl rfl), h.reg (.inr (.inl rfl)), h.reg (.inr (.inr rfl))]
  | skipKeyPressed x | skipKeyNotPressed x =>
    have hoperand : s₁.keyOperand x = s₂.keyOperand x := by
      rw [State.keyOperand, h.reg (.inr (.inl rfl)), State.keyOperand]
    have hkey := keyDown_eq_of_get (h (.key (s₁.keyOperand x)) (.inr (.inr rfl)))
    simp only [Instr.pcAfter]
    rw [hkey, hoperand, h.pc (.inl rfl)]
  | waitForKey _ => simp only [Instr.pcAfter, h.pc (.inl rfl), h.lastKey (.inr rfl)]
  | clear | loadImm _ _ | setIndex _ | unrecognised _ => simp only [Instr.pcAfter, h.pc rfl]
  | _ => simp only [Instr.pcAfter, h.pc (.inl rfl)]

/-- What stands at an address that a store reaches: the byte of the list stored there. -/
theorem byteAt_storeBytes_of_ea {s : State} (hwf : s.mem.wf) {a b : Word} {vs : List Byte} (hfits : vs.length ≤ 4096)
    {k : Nat} (hk : k < vs.length) (ha : ea a = ea (b + BitVec.ofNat 16 k)) : (s.storeBytes b vs).byteAt a = vs[k] := by
  rw [← byteAt_storeBytes_of_lt hwf b hfits hk]
  simp only [State.byteAt, ha]

/-- Stores of the same bytes at the same address agree at every address they reach. -/
theorem byteAt_storeBytes_congr {s₁ s₂ : State} (hwf₁ : s₁.mem.wf) (hwf₂ : s₂.mem.wf) {a b : Word} {vs : List Byte}
    (hfits : vs.length ≤ 4096) (ha : ∃ k < vs.length, ea a = ea (b + BitVec.ofNat 16 k)) :
    (s₁.storeBytes b vs).byteAt a = (s₂.storeBytes b vs).byteAt a := by
  obtain ⟨k, hk, ha⟩ := ha
  rw [byteAt_storeBytes_of_ea hwf₁ hfits hk ha, byteAt_storeBytes_of_ea hwf₂ hfits hk ha]

theorem regsUpTo_congr {s₁ s₂ : State} {x : RegIdx} (h : ∀ r : RegIdx, r.toNat ≤ x.toNat → s₁.reg r = s₂.reg r) :
    s₁.regsUpTo x = s₂.regsUpTo x := by
  refine List.ext_getElem (by simp) fun k hk _ => ?_
  rw [State.length_regsUpTo] at hk
  rw [State.getElem_regsUpTo, State.getElem_regsUpTo]
  refine h _ ?_
  rw [BitVec.toNat_ofNat]
  omega

/-- Result and flag writes of the same values agree on both registers. -/
theorem get_setResultAndFlag_congr (s₁ s₂ : State) {x : RegIdx} (a b : Byte) {l : Loc}
    (hl : l = .reg x ∨ l = .reg 0xF) :
    (s₁.setResultAndFlag x a b).get l = (s₂.setResultAndFlag x a b).get l := by
  obtain rfl | rfl := hl <;> simp [State.get, State.reg_setResultAndFlag, flagReg_eq]

/-- Register writes of the same value agree on that register. -/
theorem get_setReg_congr (s₁ s₂ : State) {x : RegIdx} (b : Byte) {l : Loc} (hl : l = .reg x) :
    (s₁.setReg x b).get l = (s₂.setReg x b).get l := by
  subst hl
  simp only [State.get, State.reg_setReg_self]

/-- The cells under a sprite depend on the origin, I and the sprite's bytes. -/
theorem underSprite_congr {s₁ s₂ : State} {x y : RegIdx} {n : Nibble} (hx : s₁.reg x = s₂.reg x)
    (hy : s₁.reg y = s₂.reg y) (hbytes : ∀ k < n.toNat, s₁.byteAt (s₁.indexPlus k) = s₂.byteAt (s₂.indexPlus k))
    (r : Fin 32) (c : Fin 64) : s₁.underSprite x y n r c ↔ s₂.underSprite x y n r c := by
  unfold State.underSprite
  refine exists_congr fun k => and_congr_right fun hk => ?_
  rw [hbytes k hk, hx, hy]

/-- A draw depends on its sprite and on the cells under it. -/
theorem drawn_congr {s₁ s₂ : State} {x y : RegIdx} {n : Nibble}
    (hunder : ∀ r c, s₁.underSprite x y n r c ↔ s₂.underSprite x y n r c)
    (hcells : ∀ r c, s₁.underSprite x y n r c → s₁.pixel r c = s₂.pixel r c) :
    (s₁.drawn x y n).collision = (s₂.drawn x y n).collision ∧
    ∀ (r : Fin 32) (c : Fin 64), s₁.underSprite x y n r c → (s₁.drawn x y n).fb[r][c] = (s₂.drawn x y n).fb[r][c] := by
  refine ⟨?_, fun r c hu => ?_⟩
  · rw [Bool.eq_iff_iff, State.drawn_collision, State.drawn_collision]
    refine exists_congr fun r => exists_congr fun c => ?_
    rw [← hunder]
    exact and_congr_right fun hu => by rw [hcells r c hu]
  · rw [s₁.drawn_of_underSprite hu, s₂.drawn_of_underSprite ((hunder r c).mp hu), hcells r c hu]

/-- A draw writes the same to VF and to the cells under its sprite. -/
theorem get_effect_drawSprite_congr {s₁ s₂ : State} {x y : RegIdx} {n : Nibble}
    (h : AgreeOn ((Instr.drawSprite x y n).reads s₁) s₁ s₂) {l : Loc}
    (hl : l = .reg 0xF ∨ ∃ r c, l = .pixel r c ∧ s₁.underSprite x y n r c) :
    ((Instr.drawSprite x y n).effect s₁).get l = ((Instr.drawSprite x y n).effect s₂).get l := by
  have hindex := h.index (.inr (.inr (.inr (.inl rfl))))
  have hbytes (k : Nat) (hk : k < n.toNat) : s₁.byteAt (s₁.indexPlus k) = s₂.byteAt (s₂.indexPlus k) := by
    have hplus : s₁.indexPlus k = s₂.indexPlus k := by rw [State.indexPlus, hindex, State.indexPlus]
    rw [← hplus]
    exact byteAt_eq_of_get (h _ (.inr (.inr (.inr (.inr (.inl ⟨k, hk, rfl⟩))))))
  have hunder := underSprite_congr (h.reg (.inr (.inl rfl))) (h.reg (.inr (.inr (.inl rfl)))) hbytes
  obtain ⟨hvf, hfb⟩ := drawn_congr hunder fun r c hu =>
    pixel_eq_of_get (h _ (.inr (.inr (.inr (.inr (.inr ⟨r, c, rfl, hu⟩))))))
  obtain rfl | ⟨r, c, rfl, hu⟩ := hl
  · simp only [Instr.effect, hvf]
    exact get_setReg_congr _ _ _ rfl
  · exact congrArg BitVec.toNat (hfb r c hu)

/-- Apart from pc, what an instruction writes depends on its read set alone. -/
theorem get_effect_congr {i : Instr} {s₁ s₂ : State} (hwf₁ : s₁.mem.wf) (hwf₂ : s₂.mem.wf)
    (h : AgreeOn (i.reads s₁) s₁ s₂) {l : Loc} (hpc : l ≠ .pc) (hl : i.writes s₁ l) :
    (i.effect s₁).get l = (i.effect s₂).get l := by
  cases i with
  | clear =>
    obtain ⟨r, c, rfl⟩ := hl.resolve_left hpc
    rfl
  | ret =>
    obtain rfl := hl.resolve_left hpc
    exact congrArg (fun sp : Nibble => (sp - 1).toNat) (h.sp (.inl rfl))
  | call _ =>
    have hsp := h.sp (.inr rfl)
    obtain rfl | rfl := hl.resolve_left hpc
    · exact congrArg (fun sp : Nibble => (sp + 1).toNat) hsp
    · simp only [Instr.effect, State.get, State.stackAt_push, hsp, h.pc (.inl rfl), if_true]
  | loadImm _ _ => exact get_setReg_congr _ _ _ (hl.resolve_left hpc)
  | addImm _ _ | copy _ _ =>
    simp only [Instr.effect, h.reg (.inr rfl)]
    exact get_setReg_congr _ _ _ (hl.resolve_left hpc)
  | or _ _ | and _ _ | xor _ _ =>
    simp only [Instr.effect, h.reg (.inr (.inl rfl)), h.reg (.inr (.inr rfl))]
    exact get_setReg_congr _ _ _ (hl.resolve_left hpc)
  | addCarry _ _ | subBorrow _ _ | revSubBorrow _ _ =>
    simp only [Instr.effect, h.reg (.inr (.inl rfl)), h.reg (.inr (.inr rfl))]
    exact get_setResultAndFlag_congr _ _ _ _ (hl.resolve_left hpc)
  | shiftRight _ | shiftLeft _ =>
    simp only [Instr.effect, h.reg (.inr rfl)]
    exact get_setResultAndFlag_congr _ _ _ _ (hl.resolve_left hpc)
  | setIndex _ =>
    obtain rfl := hl.resolve_left hpc
    rfl
  | addIndex _ =>
    obtain rfl := hl.resolve_left hpc
    simp only [Instr.effect, h.index (.inr (.inl rfl)), State.regWide, h.reg (.inr (.inr rfl))]
    rfl
  | setIndexToDigitSprite _ =>
    obtain rfl := hl.resolve_left hpc
    simp only [Instr.effect, State.regWide, h.reg (.inr rfl)]
    rfl
  | random x kk =>
    have hdraws : s₁.draws = s₂.draws := h .draws (.inr rfl)
    obtain rfl | rfl := hl.resolve_left hpc
    · simp [Instr.effect, State.get, State.reg_randomWith, hdraws]
    · exact congrArg (· + 1) hdraws
  | drawSprite _ _ _ => exact get_effect_drawSprite_congr h (hl.resolve_left hpc)
  | readDelayTimer _ =>
    simp only [Instr.effect, dt_eq_of_get (h .dt (.inr rfl))]
    exact get_setReg_congr _ _ _ (hl.resolve_left hpc)
  | waitForKey _ =>
    obtain ⟨hkey, hl⟩ := hl
    simp only [Instr.effect, ← h.lastKey (.inr rfl), if_pos hkey]
    exact get_setReg_congr _ _ _ (hl.resolve_left hpc)
  | setDelayTimer _ | setSoundTimer _ =>
    obtain rfl := hl.resolve_left hpc
    exact congrArg BitVec.toNat (h.reg (.inr rfl))
  | storeBCD _ =>
    obtain ⟨a, rfl, ha⟩ := hl.resolve_left hpc
    simp only [Instr.effect, h.reg (.inr (.inr rfl)), State.get]
    rw [byteAt_storeBytes_congr hwf₁ hwf₂ (bcdDigits_length_le _) ha, h.index (.inr (.inl rfl))]
  | storeRegisters x =>
    obtain ⟨a, rfl, k, hk, ha⟩ := hl.resolve_left hpc
    have hregs := regsUpTo_congr fun r hr => h.reg (.inr (.inr ⟨r, rfl, hr⟩))
    have hlt : k < (s₂.regsUpTo x).length := by
      rw [State.length_regsUpTo]
      omega
    simp only [Instr.effect, hregs, State.get]
    rw [byteAt_storeBytes_congr hwf₁ hwf₂ (length_regsUpTo_le s₂ x) ⟨k, hlt, ha⟩, h.index (.inr (.inl rfl))]
  | loadRegisters _ =>
    obtain ⟨r, rfl, hr⟩ := hl.resolve_left hpc
    have hbyte := byteAt_eq_of_get (h (.mem (s₁.indexPlus r.toNat)) (.inr (.inr ⟨_, hr, rfl⟩)))
    have hplus : s₁.indexPlus r.toNat = s₂.indexPlus r.toNat := by
      rw [State.indexPlus, h.index (.inr (.inl rfl)), State.indexPlus]
    simp only [State.get, reg_effect_loadRegisters _ hr]
    rw [hbyte, hplus]
  | _ => exact absurd hl hpc

/-- Settles O18: pc and the other places that the instruction writes. -/
theorem resultsDependOnlyOnTheReadSet : Obligations.ResultsDependOnlyOnTheReadSet := by
  intro i s₁ s₂ t₁ t₂ hwf₁ hwf₂ h₁ h₂ hreads l hl
  obtain rfl := eq_of_exec h₁
  obtain rfl := eq_of_exec h₂
  by_cases hpc : l = .pc
  · subst hpc
    exact congrArg BitVec.toNat (pcAfter_congr hreads)
  · rw [get_setPc hpc, get_setPc hpc]
    exact get_effect_congr hwf₁ hwf₂ hreads hpc hl

end Sys2Proof.Machine
end

section
/-! DrawSprite in its closed form, two draws at one origin, and origins that agree modulo 64 and 32 (44_display.md R211,
R212). -/

namespace Sys2Proof.Machine

/-- Settles O39: the draw's cells and its flag, and the frame of every instruction. -/
theorem drawSpriteFlipsExactlyTheCellsUnderIt : Obligations.DrawSpriteFlipsExactlyTheCellsUnderIt := by
  intro x y n s
  have h := exec_drawSprite s x y n
  refine ⟨_, h, fun r c => pixel_drawSprite_of_underSprite h, (vf_drawSprite_eq_one_iff h).mpr, fun hnone => ?_, rfl,
    onlyChanges_effect (.drawSprite x y n) s⟩
  exact (vf_drawSprite_eq_zero_or_one h).resolve_right (mt (vf_drawSprite_eq_one_iff h).mp hnone)

/-- A cell is on after a flip exactly when it was off before. -/
theorem flip_eq_on_iff (b : Byte) : b ^^^ 0xFF = 0xFF ↔ b = 0x00 := by
  constructor
  · intro h
    calc b = b ^^^ 0xFF ^^^ 0xFF := by rw [BitVec.xor_assoc, BitVec.xor_self, BitVec.xor_zero]
      _ = 0x00 := by rw [h, BitVec.xor_self]; rfl
  · rintro rfl
    rfl

/-- Settles O41: the second draw is over the same cells, so it flips each of them back, and it collides where the first
one turned a cell on. -/
theorem drawingTwiceRestoresTheScreen : Obligations.DrawingTwiceRestoresTheScreen := by
  intro x y n s t u hx hy hst htu
  refine ⟨fb_eq_of_pixel (pixel_drawSprite_twice hx hy hst htu), ?_⟩
  refine (vf_drawSprite_eq_one_iff htu).trans (exists_congr fun r => exists_congr fun c => ?_)
  rw [underSprite_after_drawSprite hx hy hst]
  refine and_congr_right fun hu => ?_
  rw [pixel_drawSprite_of_underSprite hst hu, flip_eq_on_iff]

/-- Only the origin modulo 64 and 32 matters for the cells under a sprite. -/
theorem underSprite_congr_of_mod {s s' : State} {x y : RegIdx} {n : Nibble} (hmem : s'.mem = s.mem)
    (hindex : s'.index = s.index) (hx : (s'.reg x).toNat % 64 = (s.reg x).toNat % 64)
    (hy : (s'.reg y).toNat % 32 = (s.reg y).toNat % 32) (r : Fin 32) (c : Fin 64) :
    s'.underSprite x y n r c ↔ s.underSprite x y n r c := by
  have hbyte (k : Nat) : s'.byteAt (s'.indexPlus k) = s.byteAt (s.indexPlus k) := by
    simp only [State.byteAt, State.indexPlus, hmem, hindex]
  have hrow (k : Nat) : ((s'.reg y).toNat + k) % 32 = ((s.reg y).toNat + k) % 32 := Nat.ModEq.add_right k hy
  have hcol (j : Nat) : ((s'.reg x).toNat + j) % 64 = ((s.reg x).toNat + j) % 64 := Nat.ModEq.add_right j hx
  simp only [State.underSprite, hbyte, hrow, hcol]

/-- Column `j` of a one-row sprite at the origin (63, 31) is under column 63 + j, wrapped, of row 31. -/
theorem underSprite_corner {s : State} {x y : RegIdx} (hx : (s.reg x).toNat = 63) (hy : (s.reg y).toNat = 31) {j : Nat}
    (hj : j < 8) (hbit : (s.byteAt s.index).getLsbD (7 - j) = true) {c : Fin 64} (hc : c.val = (63 + j) % 64) :
    s.underSprite x y 1 31 c := by
  have hbit' : (s.byteAt (s.indexPlus 0)).getLsbD (7 - j) = true := by rwa [State.indexPlus, BitVec.add_zero]
  exact ⟨0, by decide, j, hj, hbit', by rw [hy]; rfl, by rw [hx, hc]⟩

/-- Settles O42: the two draws are over the same cells of the same frame buffer; at the corner each column's cell. -/
theorem originWrapsPerPixel : Obligations.OriginWrapsPerPixel := by
  refine ⟨fun x y n s s' t t' hfb hmem hindex hx hy h h' => ?wrap,
    fun x y s t hx hy h => ⟨fun hbit => ?left, fun hbit => ?right⟩⟩
  case wrap =>
    have hunder := underSprite_congr_of_mod (n := n) hmem hindex hx hy
    have hpixel (r : Fin 32) (c : Fin 64) : s'.pixel r c = s.pixel r c := by rw [State.pixel, hfb, State.pixel]
    refine ⟨fb_eq_of_pixel fun r c => ?_, ?_⟩
    · by_cases hu : s.underSprite x y n r c
      · rw [pixel_drawSprite_of_underSprite h hu, pixel_drawSprite_of_underSprite h' ((hunder r c).mpr hu), hpixel]
      · rw [pixel_drawSprite_of_not_underSprite h hu, pixel_drawSprite_of_not_underSprite h' (mt (hunder r c).mp hu),
          hpixel]
    · rw [vf_drawSprite h, vf_drawSprite h', (drawn_congr hunder fun r c _ => hpixel r c).1]
  case left => exact pixel_drawSprite_of_underSprite h (underSprite_corner hx hy (j := 0) (by decide) hbit rfl)
  case right => exact pixel_drawSprite_of_underSprite h (underSprite_corner hx hy (j := 1) (by decide) hbit rfl)

end Sys2Proof.Machine
end

section
/-! Calls and returns (41_control_flow.md R140, R142, R148; 10_state.md R25). -/

namespace Sys2Proof.Machine

/-- A frame in the terms of a list of places, from the frame of the instruction. -/
theorem onlyChanges_of_writes (i : Instr) {s : State} {places : List Loc} (h : ∀ l, i.writes s l → l ∈ places) :
    OnlyChanges (· ∈ places) s ((i.effect s).setPc (i.pcAfter s)) :=
  (onlyChanges_effect i s).mono h

/-- Settles O23: the push writes the old pc under the old SP. -/
theorem callPushesItsOwnAddress : Obligations.CallPushesItsOwnAddress := by
  intro nnn s
  refine ⟨_, exec_call s nnn, ?entry, BitVec.toNat_add s.sp 1, toNat_addrOperand nnn,
    onlyChanges_of_writes (.call nnn) fun l hl => ?frame⟩
  case entry => rw [State.stackAt_setPc, State.stackAt_push, if_pos rfl]
  case frame => simpa [Instr.writes] using hl

/-- Settles O24: the pop leaves the entry, and pc is 2 past the address in it. -/
theorem returnGoesTwoPastTheCall : Obligations.ReturnGoesTwoPastTheCall := by
  intro s
  refine ⟨_, exec_ret s, ?sp, BitVec.toNat_add _ 2, onlyChanges_of_writes .ret fun l hl => ?frame⟩
  case sp =>
    have hsub : (s.sp - 1).toNat = (16 - 1 + s.sp.toNat) % 16 := BitVec.toNat_sub s.sp 1
    exact hsub.trans (by rw [Nat.add_comm])
  case frame => simpa [Instr.writes] using hl

/-- A Return at the SP and the entry that a Call of `s` left comes back to 2 past that Call. -/
theorem exec_ret_of_call {s u : State} (hsp : u.sp = s.sp + 1) (hentry : u.stackAt s.sp = s.pc) :
    exec .ret u = .next (u.popPc.setPc (s.pc + 2)) ∧ (u.popPc.setPc (s.pc + 2)).sp = s.sp := by
  have hback : u.sp - 1 = s.sp := by rw [hsp, BitVec.add_sub_cancel]
  refine ⟨?_, hback⟩
  rw [exec_ret, hback, hentry]

theorem execAll_cons {i : Instr} {s t : State} (h : exec i s = .next t) (is : List Instr) :
    execAll (i :: is) s = execAll is t := by
  rw [execAll, h]

/-- A list of instructions runs to a state, and the rest goes on from there. -/
theorem execAll_append {is : List Instr} {s t : State} (h : execAll is s = .next t) (js : List Instr) :
    execAll (is ++ js) s = execAll js t := by
  induction is generalizing s with
  | nil => cases h; rfl
  | cons i is ih =>
    obtain ⟨u, hu⟩ := exec_completes s i
    rw [execAll_cons hu] at h
    rw [List.cons_append, execAll_cons hu, ih h]

/-- Calls to each of the targets, one after another, and then as many Returns. -/
def nest (targets : List Addr12) : List Instr := targets.map .call ++ List.replicate targets.length .ret

theorem nest_cons (nnn : Addr12) (targets : List Addr12) :
    nest (nnn :: targets) = .call nnn :: (nest targets ++ [.ret]) := by
  simp [nest, List.replicate_succ']

/-- A nest of at most sixteen calls restores SP, comes back to 2 past its first Call, and writes no entry but the ones
it pushes, which are those from SP upward, one for each call. -/
theorem execAll_nest (targets : List Addr12) (s : State) (hlen : targets.length ≤ 16) :
    ∃ t, execAll (nest targets) s = .next t ∧ (targets ≠ [] → t.pc = s.pc + 2) ∧ t.sp = s.sp ∧
      ∀ k : Nat, targets.length ≤ k → k < 16 →
        t.stackAt (s.sp + BitVec.ofNat 4 k) = s.stackAt (s.sp + BitVec.ofNat 4 k) := by
  induction targets generalizing s with
  | nil => exact ⟨s, rfl, fun h => absurd rfl h, rfl, fun _ _ _ => rfl⟩
  | cons nnn targets ih =>
    rw [List.length_cons] at hlen
    have hcall := exec_call s nnn
    obtain ⟨u, hu, -, husp, hustack⟩ := ih ((s.push s.pc).setPc (addrOperand nnn)) (by omega)
    have hshift (k : Nat) : s.sp + 1 + BitVec.ofNat 4 k = s.sp + BitVec.ofNat 4 (k + 1) := by
      rw [BitVec.add_assoc, Nat.add_comm, BitVec.ofNat_add]
      rfl
    have hframe (k : Nat) (hk : targets.length + 1 ≤ k + 1) (hk' : k < 16) :
        u.stackAt (s.sp + BitVec.ofNat 4 (k + 1)) = (s.push s.pc).stackAt (s.sp + BitVec.ofNat 4 (k + 1)) := by
      rw [← hshift]
      exact hustack k (by omega) hk'
    have hentry : u.stackAt s.sp = s.pc := by
      have h := hframe 15 (by omega) (by omega)
      simpa [State.stackAt_push] using h
    obtain ⟨hret, hsp⟩ := exec_ret_of_call husp hentry
    refine ⟨_, ?_, fun _ => rfl, hsp, fun k hk hk' => ?_⟩
    · rw [nest_cons, execAll_cons hcall, execAll_append hu, execAll_cons hret]
      rfl
    · obtain ⟨j, rfl⟩ : ∃ j, k = j + 1 := ⟨k - 1, by simp at hk; omega⟩
      have hne : s.sp + BitVec.ofNat 4 (j + 1) ≠ s.sp := by
        simp [← BitVec.toNat_inj]
        omega
      rw [State.stackAt_setPc, State.stackAt_popPc, hframe j hk (by omega), State.stackAt_push, if_neg hne]

/-- Settles O25: a Return that finds SP and the entry as the Call left them, and the nest of calls. -/
theorem nestedCallsReturn : Obligations.NestedCallsReturn := by
  refine ⟨fun nnn s t u w hcall hsp hentry hret => ?matched, fun targets s hne hlen => ?nested⟩
  case matched =>
    obtain rfl := eq_of_exec hcall
    have hpushed : ((s.push s.pc).setPc (addrOperand nnn)).stackAt s.sp = s.pc := by
      rw [State.stackAt_setPc, State.stackAt_push, if_pos rfl]
    obtain ⟨hback, hspBack⟩ := exec_ret_of_call hsp (hentry.trans hpushed)
    cases hback.symm.trans hret
    exact ⟨rfl, hspBack⟩
  case nested =>
    obtain ⟨t, ht, hpc, hsp, -⟩ := execAll_nest targets s hlen
    exact ⟨t, ht, hpc hne, hsp⟩

end Sys2Proof.Machine
end

section
/-! Single instructions on the integers: JumpIndexed, the register and index arithmetic, the key skips and Random
(41_control_flow.md R147, 42_alu.md R163 to R172, 43_index_memory.md R191, 45_keypad_timers_random.md R230 to R236). -/

namespace Sys2Proof.Machine

/-- Settles O27: class 0xB, and a target that does not wrap. -/
theorem jumpIndexedAddsV0 : Obligations.JumpIndexedAddsV0 := by
  refine ⟨encodes_of_fieldClass 0xB#4 rfl fun op h => by simp only [decodeWord, h], fun nnn s => ?_⟩
  have htarget := toNat_addrOperand_add_regWide nnn s 0
  have := nnn.isLt
  have := (s.reg 0).isLt
  exact ⟨_, exec_jumpIndexed s nnn, htarget, by rw [State.setPc_pc, htarget]; omega, onlyChanges_setPc s _⟩

/-- Settles O29: the operations of the words are those of their bits. -/
theorem bitwiseOperationsActPerBit : Obligations.BitwiseOperationsActPerBit := by
  refine fun x y s => ⟨⟨_, exec_or s x y, rfl, onlyChanges_setReg_setPc s x _ _, fun k => ?or⟩,
    ⟨_, exec_and s x y, rfl, onlyChanges_setReg_setPc s x _ _, fun k => ?and⟩,
    ⟨_, exec_xor s x y, rfl, onlyChanges_setReg_setPc s x _ _, fun k => ?xor⟩⟩
  case or => rw [State.reg_setPc, State.reg_setReg_self, BitVec.getLsbD_or]
  case and => rw [State.reg_setPc, State.reg_setReg_self, BitVec.getLsbD_and]
  case xor => rw [State.reg_setPc, State.reg_setReg_self, BitVec.getLsbD_xor]

/-- The frame of a result and a flag, and then of pc. -/
theorem onlyChanges_setResultAndFlag_setPc (s : State) (x : RegIdx) (result flag : Byte) (target : Word) :
    OnlyChanges (· ∈ [.pc, .reg x, .reg 0xF]) s ((s.setResultAndFlag x result flag).setPc target) := by
  intro l hl
  obtain ⟨hpc, hregs⟩ : l ≠ .pc ∧ l ≠ .reg x ∧ l ≠ .reg 0xF := by simpa using hl
  exact (get_setPc hpc _ target).trans (get_setResultAndFlag hregs s result flag)

/-- A destination other than VF holds the result. -/
theorem reg_setResultAndFlag_of_ne (s : State) {x : RegIdx} (hx : x ≠ 0xF) (result flag : Byte) :
    (s.setResultAndFlag x result flag).reg x = result := by
  rw [State.reg_setResultAndFlag, flagReg_eq, if_neg hx, if_pos rfl]

theorem flagByte_decide (p : Prop) [Decidable p] : flagByte (decide p) = if p then 1 else 0 := by
  by_cases hp : p <;> simp [flagByte, hp]

/-- A difference modulo 256, from the side that does not go below zero. -/
theorem toNat_sub_eq (a b : Byte) : (a - b).toNat = (a.toNat + 256 - b.toNat) % 256 := by
  have := b.isLt
  rw [BitVec.toNat_sub]
  congr 1
  omega

/-- Settles O30: results modulo 256, flags by comparing the old values. -/
theorem addAndSubtractSetResultAndFlag : Obligations.AddAndSubtractSetResultAndFlag := by
  intro x y s
  have hframe (result flag : Byte) := onlyChanges_setResultAndFlag_setPc s x result flag (s.pc + 2)
  refine ⟨⟨_, exec_addCarry s x y, fun hx => ?sum, ?carry, rfl, hframe _ _⟩,
    ⟨_, exec_subBorrow s x y, fun hx => ?diff, ?noBorrow, rfl, hframe _ _⟩,
    ⟨_, exec_revSubBorrow s x y, fun hx => ?revDiff, ?revNoBorrow, rfl, hframe _ _⟩⟩
  case sum => rw [State.reg_setPc, reg_setResultAndFlag_of_ne s hx, BitVec.toNat_add]
  case diff | revDiff => rw [State.reg_setPc, reg_setResultAndFlag_of_ne s hx, toNat_sub_eq]
  case carry | noBorrow | revNoBorrow => exact (vf_setResultAndFlag s x _ _).trans (flagByte_decide _)

/-- Settles O31: halving and doubling, and the bit that each drops. -/
theorem shiftsSetTheBitShiftedOut : Obligations.ShiftsSetTheBitShiftedOut := by
  intro x s
  have hframe (result flag : Byte) := onlyChanges_setResultAndFlag_setPc s x result flag (s.pc + 2)
  refine ⟨⟨_, exec_shiftRight s x, fun hx => ?half, ?bit0, rfl, hframe _ _⟩,
    ⟨_, exec_shiftLeft s x, fun hx => ?double, ?bit7, rfl, hframe _ _⟩⟩
  case half =>
    rw [State.reg_setPc, reg_setResultAndFlag_of_ne s hx, BitVec.toNat_ushiftRight, Nat.shiftRight_eq_div_pow]
  case bit0 => rw [State.reg_setPc, vf_setResultAndFlag, toNat_shiftRightFlag]
  case double =>
    rw [State.reg_setPc, reg_setResultAndFlag_of_ne s hx, BitVec.toNat_shiftLeft, Nat.shiftLeft_eq]
  case bit7 => rw [State.reg_setPc, vf_setResultAndFlag, toNat_shiftLeftFlag]

/-- Settles O33: the sum of I and the widened Vx. -/
theorem addIndexWrapsWithoutFlag : Obligations.AddIndexWrapsWithoutFlag := by
  refine fun x s => ⟨_, exec_addIndex s x, ?_, rfl, onlyChanges_setIndexReg_setPc s _ _⟩
  rw [State.setPc_index, State.setIndexReg_index, BitVec.toNat_add, toNat_regWide]

/-- Settles O43: the low nibble of Vx is the key's number. -/
theorem keySkipsConsultTheKeyFlag : Obligations.KeySkipsConsultTheKeyFlag := by
  intro x k s hk
  obtain rfl : k = s.keyOperand x := BitVec.eq_of_toNat_eq (by rw [hk, State.keyOperand, BitVec.toNat_setWidth])
  exact ⟨exec_skipKeyPressed s x, exec_skipKeyNotPressed s x⟩

/-- Settles O47: an and with the mask has no bit outside it, whatever the byte drawn. -/
theorem randomMasksAFreeByte : Obligations.RandomMasksAFreeByte := by
  intro x kk s
  have hreg : ((randomWith (Config.rnd s.draws) x kk s).setPc (s.pc + 2)).reg x = Config.rnd s.draws &&& kk :=
    State.reg_setReg_self s x _
  refine ⟨_, exec_random s x kk, hreg, fun k hk => ?mask, rfl, rfl,
    onlyChanges_of_writes (.random x kk) fun l hl => ?frame⟩
  case mask => rw [hreg, BitVec.getLsbD_and, hk, Bool.and_false]
  case frame => simpa [Instr.writes] using hl

end Sys2Proof.Machine
end

section
/-! Waiting for a key, and the host's TICK, LOAD, RESET and read-outs (45_keypad_timers_random.md R232, 50_interface.md
R250 to R257, 60_exceptions.md R290, R291, R297, 70_reset_and_hazards.md R310). -/

namespace Sys2Proof.Machine

/-- A state that a step leaves as it is stays for any number of steps. -/
theorem run_of_step_self {s : State} (h : step s = .next s) (n : Nat) : Sys2Proof.core.run n s = .next s := by
  induction n with
  | zero => rfl
  | succ n ih => rw [run_succ_of_step h, ih]

/-- Settles O45: without a key the step changes nothing; the host's write of the slot leaves the fetched word, so the
next step is the same WaitForKey, now with a key. -/
theorem waitingPollsUntilTheHostWritesAKey : Obligations.WaitingPollsUntilTheHostWritesAKey := by
  intro x s hi hnone
  refine ⟨run_of_step_self ?poll, fun v hv => ?taken⟩
  case poll =>
    rw [step_eq_exec_nextInstr, hi]
    exact exec_waitForKey_of_noKey hnone x
  case taken =>
    have hi' : (lastKeyWrite v s).nextInstr = .waitForKey x := hi
    have hstep : step (lastKeyWrite v s) = .next (((lastKeyWrite v s).setReg x v).setPc (s.pc + 2)) := by
      rw [step_eq_exec_nextInstr, hi']
      exact exec_waitForKey_of_key (s := lastKeyWrite v s) hv x
    refine ⟨_, hstep, State.reg_setReg_self _ x v, rfl, fun l hl => ?_⟩
    obtain ⟨hpc, hreg, hslot⟩ : l ≠ .pc ∧ l ≠ .reg x ∧ l ≠ .lastKey := by simpa using hl
    rw [get_setPc hpc, get_setReg hreg, get_lastKeyWrite hslot]

/-- A TICK changes the two timers alone. -/
theorem onlyChanges_tick (s : State) : OnlyChanges (· ∈ [.dt, .st]) s (tick s) := by
  intro l hl
  obtain ⟨hdt, hst⟩ : l ≠ .dt ∧ l ≠ .st := by simpa using hl
  exact (get_setSt hst _ _).trans (get_setDt hdt s _)

/-- Settles O48, by induction on the number of TICKs. -/
theorem ticksCountDownToZero : Obligations.TicksCountDownToZero := by
  intro n
  induction n with
  | zero => exact fun s => ⟨s, rfl, rfl, rfl, fun _ _ => rfl⟩
  | succ n ih =>
    intro s
    obtain ⟨t, ht, hdt, hst, hframe⟩ := ih (tick s)
    have hticked : transact .tick s = .next (tick s, .done) := rfl
    refine ⟨t, by rw [List.replicate_succ, runTransactions_cons hticked, ht], ?_, ?_, (onlyChanges_tick s).trans hframe⟩
    · rw [hdt, show (tick s).dt = countDown s.dt from rfl, toNat_countDown, Nat.sub_sub, Nat.add_comm]
    · rw [hst, show (tick s).st = countDown s.st from rfl, toNat_countDown, Nat.sub_sub, Nat.add_comm]

/-- Settles O49: an image that fits is stored from 0x200 and does not wrap; a longer one leaves the state. -/
theorem loadCopiesTheImageOrRejectsIt : Obligations.LoadCopiesTheImageOrRejectsIt := by
  intro image s hwf
  refine ⟨fun hfits => ⟨_, transact_load_ok s hfits, fun k hk => ?byte, fun l hl => ?frame⟩, transact_load_error s⟩
  case byte =>
    rw [BitVec.ofNat_add]
    exact byteAt_storeBytes_of_lt hwf 0x200 (by omega) hk
  case frame =>
    refine get_storeBytes s _ _ fun a ha k hk hea => hl ⟨a, ha, ?_⟩
    have hbase : (0x200 : Word).toNat = 0x200 := rfl
    rw [hea, ea_add, hbase, Nat.mod_eq_of_lt (by omega)]
    omega

/-- Memory as RESET leaves it: the font, and zero above it. -/
theorem default_eq (a : Nat) : Memory.default a = if a < 80 then Config.font.getD a 0x00 else 0x00 := by
  split
  · rfl
  · next h =>
    have hlen : Config.font.length = 80 := rfl
    exact List.getD_eq_default _ _ (by omega)

/-- Settles O51: the RESET transaction and State.reset differ in the draw count alone. -/
theorem resetPutsEveryItemAtItsResetValue : Obligations.ResetPutsEveryItemAtItsResetValue := by
  intro s
  refine ⟨resetTransaction s, rfl, rfl, fun u hu => ?_⟩
  have hu' : u = { State.reset with draws := u.draws } := by
    obtain rfl | rfl : u = resetTransaction s ∨ u = State.reset := by simpa using hu
    · rfl
    · rfl
  rw [hu']
  refine ⟨fun r => ?_, fun k => ?_, fun k => ?_, rfl, fun a => default_eq _, rfl, rfl, fun r c => ?_, rfl, rfl, rfl⟩
  · exact Vector.getElem_replicate _
  · exact Vector.getElem_replicate _
  · exact Vector.getElem_replicate _
  · simp only [State.pixel, State.reset, Fin.getElem_fin, Vector.getElem_replicate, Config.pixOff]

end Sys2Proof.Machine
end

section
/-! The read-outs (50_interface.md R257, 60_exceptions.md R291). -/

namespace Sys2Proof.Machine

/-- The linear view is the flattened frame buffer. -/
theorem frameBufferView_eq (s : State) : frameBufferView s = s.fb.flatten.toList := by
  unfold frameBufferView
  obtain ⟨rows, hrows⟩ := s.fb
  simp [List.flatMap_def, Function.comp_def]
  rfl

/-- Settles O53: cell (r, c) of the flattened frame buffer; the timers are read as they are. -/
theorem readOutsShowTheStateAndChangeNothing : Obligations.ReadOutsShowTheStateAndChangeNothing := by
  intro s
  refine ⟨⟨frameBufferView s, rfl, ?length, fun r c => ?cell⟩, rfl, rfl, soundOn s, rfl, decide_eq_true_iff⟩
  case length => rw [frameBufferView_eq, Vector.length_toList]
  case cell =>
    have hr : (r.val * 64 + c.val) / 64 = r.val := by omega
    have hc : (r.val * 64 + c.val) % 64 = c.val := by omega
    rw [frameBufferView_eq, List.getElem?_eq_getElem (by rw [Vector.length_toList]; omega), Vector.getElem_toList,
      Vector.getElem_flatten]
    simp only [hr, hc]
    rfl

end Sys2Proof.Machine
end
